-- ==== Sys2Proof/Word.lean ====
section
/-! DEFINITION. The two word types of the machine (00_scope.md R7, R8): bytes and 16-bit words. -/

namespace Sys2Proof

/-- A byte: a memory cell, `acc`, `reg_a`, `reg_b`, an opcode, an immediate (R7). -/
abbrev Byte := BitVec 8

/-- A 16-bit word: `pc`, `sp`, an address operand (R7). -/
abbrev Word := BitVec 16

end Sys2Proof
end

