-- ==== Sys2Proof/Machine/AluOps.lean ====
section
/-! DEFINITION. The ALU's results on unsigned bytes, reduced modulo 256 (42_alu.md R141). -/

namespace Sys2Proof.Machine

/-- `a +8 b` (00_scope.md R9, 42_alu.md R141). -/
def aluAdd (a b : Byte) : Byte := a + b

/-- `a -8 b` (00_scope.md R9, 42_alu.md R141). -/
def aluSub (a b : Byte) : Byte := a - b

/-- `a *8 b`, the low byte of the product (00_scope.md R9, 42_alu.md R141). -/
def aluMul (a b : Byte) : Byte := a * b

/-- `a div b` on naturals; `none` is DivisionByZero (42_alu.md R141; unsigned is the spec's own
D9, log 10). -/
def aluDiv (a b : Byte) : Option Byte := if b = 0 then none else some (a / b)

/-- `a & b` (42_alu.md R143). -/
def aluAnd (a b : Byte) : Byte := a &&& b

/-- `a | b` (42_alu.md R143). -/
def aluOr (a b : Byte) : Byte := a ||| b

/-- `a ^ b` (42_alu.md R143). -/
def aluXor (a b : Byte) : Byte := a ^^^ b

end Sys2Proof.Machine
end

