-- ==== Sys2Proof/Machine/Bytes.lean ====
section
/-! DEFINITION. The byte order of the machine, little endian everywhere (20_memory.md R57):
the two bytes of a word and the word of two bytes. -/

namespace Sys2Proof

/-- `v[7:0]`, the byte stored at the lower address (20_memory.md R55). -/
def lowByte (v : Word) : Byte := v.extractLsb' 0 8

/-- `v[15:8]`, the byte stored at the higher address (20_memory.md R55). -/
def highByte (v : Word) : Byte := v.extractLsb' 8 8

/-- `{hi, lo}`, that is `lo + 256 * hi` (00_scope.md R8, 20_memory.md R54, 40_fetch_step.md R101). -/
def wordOfBytes (lo hi : Byte) : Word := hi ++ lo

end Sys2Proof
end

