-- ==== Sys2Proof/Syntax.lean ====
section
/-! DEFINITION. The instructions of the ISA, one constructor per row of the opcode map
(30_encoding.md R85), and the three formats (R80). An address operand is a 16-bit word and an
immediate a byte; every value of either is legal (R88). -/

namespace Sys2Proof

/-- The three instruction formats of 30_encoding.md R80. -/
inductive Format where
  /-- No operand, 1 byte. -/
  | n
  /-- An immediate byte, 2 bytes. -/
  | i
  /-- An absolute address, 3 bytes. -/
  | a
deriving DecidableEq, Repr

/-- The 27 instructions of 30_encoding.md R85, in the table's order. -/
inductive Instr where
  | load (addr : Word)
  | store (addr : Word)
  | add (addr : Word)
  | sub (addr : Word)
  | inc
  | dec
  | and (addr : Word)
  | or (addr : Word)
  | xor (addr : Word)
  | jmp (addr : Word)
  | jz (addr : Word)
  | jnz (addr : Word)
  | lda (imm : Byte)
  | mov
  | mul
  | div
  | cmp
  | call (addr : Word)
  | ret
  | jp (addr : Word)
  | jn (addr : Word)
  | int (vec : Word)
  | cli
  | sei
  | push
  | pop
  | halt
deriving DecidableEq, Repr

end Sys2Proof
end

