-- ==== Sys2Proof/Decode.lean ====
section
/-! DEFINITION. The instruction decoder and its inverse: the opcode map (30_encoding.md R85, R92),
the decoder of a string of bytes, the encoder, and the host's entry point on a table word. -/

namespace Sys2Proof

/-- What the dispatch map holds for a defined opcode (30_encoding.md R92, "operation descriptor
(operand arity, handler)"): the format, and the instruction the operand makes. -/
inductive Descriptor where
  | n (instr : Instr)
  | i (instr : Byte → Instr)
  | a (instr : Word → Instr)

/-- The format of a descriptor (R80, R84). -/
def Descriptor.format : Descriptor → Format
  | .n _ => .n
  | .i _ => .i
  | .a _ => .a

/-- The length in bytes of an instruction of a format (R80). -/
def Format.length : Format → Nat
  | .n => 1
  | .i => 2
  | .a => 3

/-- The dispatch multiplexer: the fixed map from the 256 opcode bytes to an operation
(30_encoding.md R85, R92). The 229 undefined values map to nothing (R86). -/
def descriptor (op : Byte) : Option Descriptor :=
  match op with
  | 0x01 => some (.a .load)
  | 0x02 => some (.a .store)
  | 0x03 => some (.a .add)
  | 0x04 => some (.a .sub)
  | 0x07 => some (.n .inc)
  | 0x08 => some (.n .dec)
  | 0x09 => some (.a .and)
  | 0x0A => some (.a .or)
  | 0x0B => some (.a .xor)
  | 0x10 => some (.a .jmp)
  | 0x11 => some (.a .jz)
  | 0x12 => some (.a .jnz)
  | 0x13 => some (.i .lda)
  | 0x14 => some (.n .mov)
  | 0x15 => some (.n .mul)
  | 0x16 => some (.n .div)
  | 0x17 => some (.n .cmp)
  | 0x18 => some (.a .call)
  | 0x19 => some (.n .ret)
  | 0x1A => some (.a .jp)
  | 0x1B => some (.a .jn)
  | 0x1C => some (.a .int)
  | 0x1D => some (.n .cli)
  | 0x1E => some (.n .sei)
  | 0x1F => some (.n .push)
  | 0x20 => some (.n .pop)
  | 0xFF => some (.n .halt)
  | _ => none

/-- Why a string of bytes is no instruction. -/
inductive DecodeError where
  /-- There is no opcode byte. -/
  | noBytes
  /-- The opcode byte is one of the 229 undefined values (30_encoding.md R86). -/
  | unknownOpcode (op : Byte)
  /-- The string ends before the last operand byte of this opcode (R80). -/
  | truncated (op : Byte)
deriving DecidableEq, Repr

/-- Reads one instruction from the front of a string of bytes and returns the rest of it
(30_encoding.md R80 to R84). -/
def decode : List Byte → Except DecodeError (Instr × List Byte)
  | [] => .error .noBytes
  | op :: rest =>
    match descriptor op, rest with
    | none, _ => .error (.unknownOpcode op)
    | some (.n instr), rest => .ok (instr, rest)
    | some (.i instr), imm :: rest => .ok (instr imm, rest)
    | some (.a instr), lo :: hi :: rest => .ok (instr (wordOfBytes lo hi), rest)
    | some _, _ => .error (.truncated op)

/-- The bytes of a format A instruction (30_encoding.md R80, R83). -/
def encodeA (op : Byte) (addr : Word) : List Byte := [op, lowByte addr, highByte addr]

/-- The bytes of an instruction, in ascending addresses (30_encoding.md R80, R85). -/
def encode : Instr → List Byte
  | .load addr => encodeA 0x01 addr
  | .store addr => encodeA 0x02 addr
  | .add addr => encodeA 0x03 addr
  | .sub addr => encodeA 0x04 addr
  | .inc => [0x07]
  | .dec => [0x08]
  | .and addr => encodeA 0x09 addr
  | .or addr => encodeA 0x0A addr
  | .xor addr => encodeA 0x0B addr
  | .jmp addr => encodeA 0x10 addr
  | .jz addr => encodeA 0x11 addr
  | .jnz addr => encodeA 0x12 addr
  | .lda imm => [0x13, imm]
  | .mov => [0x14]
  | .mul => [0x15]
  | .div => [0x16]
  | .cmp => [0x17]
  | .call addr => encodeA 0x18 addr
  | .ret => [0x19]
  | .jp addr => encodeA 0x1A addr
  | .jn addr => encodeA 0x1B addr
  | .int vec => encodeA 0x1C vec
  | .cli => [0x1D]
  | .sei => [0x1E]
  | .push => [0x1F]
  | .pop => [0x20]
  | .halt => [0xFF]

/-- The format of an instruction (the "format" column of 30_encoding.md R85). -/
def Instr.format : Instr → Format
  | .load _ | .store _ | .add _ | .sub _ | .and _ | .or _ | .xor _ => .a
  | .jmp _ | .jz _ | .jnz _ | .call _ | .jp _ | .jn _ | .int _ => .a
  | .lda _ => .i
  | .inc | .dec | .mov | .mul | .div | .cmp | .ret => .n
  | .cli | .sei | .push | .pop | .halt => .n

/-- The length in bytes of an instruction (the "length" column of 30_encoding.md R85). -/
def Instr.length (instr : Instr) : Nat := instr.format.length

/-- The three bytes, lowest address first, that hold the `nbits` low bits of `w`, every bit above
them 0: the numbering of spec/opcode_table.json (bit 0 is the least significant bit of the first
byte) and the longest instruction of R84. -/
def tableBytes (nbits w : Nat) : List Byte :=
  let v := w % 2 ^ nbits
  [BitVec.ofNat 8 v, BitVec.ofNat 8 (v / 256), BitVec.ofNat 8 (v / 65536)]

/-- The instruction the decoder reads from a word of the opcode table. -/
def decodeTableWord (nbits w : Nat) : Option Instr :=
  match decode (tableBytes nbits w) with
  | .ok (instr, _) => some instr
  | .error _ => none

end Sys2Proof
end

