-- ==== Sys2Proof/Config.lean ====
section
/-! DEFINITION. The one implementation parameter, `MEM_SIZE` (00_scope.md R6). The spec leaves no
value open besides it (00_scope.md R17), so there is no free value here. -/

namespace Sys2Proof

/-- The values `MEM_SIZE` may take: `0 <= MEM_SIZE <= 65536` (00_scope.md R6). -/
abbrev Config.MemSize := Fin 65537

/-- The default of R6, used by the reset state. DESIGN CHOICE (log 1): the reset state is the
construction with this size; `State.construct` takes any other. -/
def Config.defaultMemSize : Config.MemSize := 65536

end Sys2Proof
end

