-- ==== Sys2Proof/Machine/Memory.lean ====
section
/-! DEFINITION. The Memory component (20_memory.md sections 1 and 2): the array as plain data in
one canonical form, and its contract `read`, `write`, `read16`, `write16`, `size` (R50). -/

namespace Sys2Proof.Machine

/-- The Memory array (20_memory.md R50): its size, and the bytes that are not what an unlisted
address reads as, by rising address. `size` is the parameter `MEM_SIZE` (log 1). -/
structure Memory where
  size : Config.MemSize
  cells : List Host.Cell
deriving DecidableEq, Repr

/-- What an address no cell lists reads as: memory is zero-initialized (10_state.md R31). -/
def Memory.unlisted : Byte := 0x00

/-- The canonical form: addresses strictly rising, all inside the array, no listed byte equal to
what an unlisted address reads as. -/
abbrev Memory.wf (m : Memory) : Prop :=
  m.cells.Pairwise (fun c d => c.1 < d.1) ∧
    ∀ c ∈ m.cells, c.1 < m.size.val ∧ c.2 ≠ Memory.unlisted

/-- The byte a list of cells holds for an address. -/
def lookupCell (a : Nat) : List Host.Cell → Byte
  | [] => Memory.unlisted
  | (b, v) :: rest => if a = b then v else lookupCell a rest

/-- The list without the cells of an address. -/
def removeCell (a : Nat) : List Host.Cell → List Host.Cell
  | [] => []
  | (b, v) :: rest => if a = b then removeCell a rest else (b, v) :: removeCell a rest

/-- Puts a cell before the first cell of a higher address. -/
def insertCell (a : Nat) (v : Byte) : List Host.Cell → List Host.Cell
  | [] => [(a, v)]
  | (b, w) :: rest => if a < b then (a, v) :: (b, w) :: rest else (b, w) :: insertCell a v rest

/-- `M[a]`, without the bounds check. -/
def Memory.get (m : Memory) (a : Nat) : Byte := lookupCell a m.cells

/-- `M[a] <- v`, without the bounds check. -/
def Memory.set (m : Memory) (a : Nat) (v : Byte) : Memory :=
  { m with
    cells :=
      if v = Memory.unlisted then removeCell a m.cells
      else insertCell a v (removeCell a m.cells) }

/-- The bounds checker: an access of `n` bytes at `a` is admitted exactly when
`a + n - 1 < MEM_SIZE`, on unbounded naturals (20_memory.md R51; `n` is 1 or 2). -/
def Memory.admits (m : Memory) (a n : Nat) : Bool := decide (a + n - 1 < m.size.val)

/-- `MemRead(a, 1)` (20_memory.md R52); `none` is OutOfBounds. -/
def Memory.read (m : Memory) (a : Nat) : Option Byte :=
  if m.admits a 1 then some (m.get a) else none

/-- `MemWrite(a, 1, v)` (20_memory.md R53); `none` is OutOfBounds. -/
def Memory.write (m : Memory) (a : Nat) (v : Byte) : Option Memory :=
  if m.admits a 1 then some (m.set a v) else none

/-- `MemRead(a, 2)` (20_memory.md R54); `none` is OutOfBounds. -/
def Memory.read16 (m : Memory) (a : Nat) : Option Word :=
  if m.admits a 2 then some (wordOfBytes (m.get a) (m.get (a + 1))) else none

/-- `MemWrite(a, 2, v)` (20_memory.md R55): both bytes or, on OutOfBounds, neither. -/
def Memory.write16 (m : Memory) (a : Nat) (v : Word) : Option Memory :=
  if m.admits a 2 then some ((m.set a (lowByte v)).set (a + 1) (highByte v)) else none

end Sys2Proof.Machine
end

