-- ==== Sys2Proof/Machine/State.lean ====
section
/-! DEFINITION. The machine's state (10_state.md R20), the error kinds, and the state after
reset (10_state.md R35, 70_reset_and_hazards.md R220, R221). -/

namespace Sys2Proof.Machine

/-- The whole architectural state (10_state.md R20): the Processor's record, the error status
registers and the Memory the Processor owns. -/
structure State where
  /-- Program counter, the address of the next instruction byte to fetch (R21). -/
  pc : Word
  /-- Accumulator (R22). -/
  acc : Byte
  /-- General register `reg_a` (R23). -/
  regA : Byte
  /-- General register `reg_b` (R24). -/
  regB : Byte
  /-- Stack pointer (R25). -/
  sp : Word
  /-- The run state: `false` is Running, `true` is Halted (R26). -/
  halted : Bool
  /-- `interrupts_enabled`, written by CLI and SEI, read by nothing (R27). -/
  interruptsEnabled : Bool
  /-- Code of the error that ended the run, 0 when there was none (R30, the spec's own D12). -/
  err : BitVec 3
  /-- Opcode byte that UnknownInstruction carries (R30). -/
  errOpcode : Byte
  /-- Address that UnknownInstruction carries (R30). -/
  errPc : Word
  /-- Memory (R31). -/
  mem : Memory
deriving DecidableEq, Repr

/-- The five error kinds (60_exceptions.md R190, 00_scope.md R12). A sub-operation raises one and
the error entry `errorEntry` (R198) takes it into the state, so that no step answers with a
fault: the spec says where every register stands after each error (R191 to R195), and that state
is the NEXT state, Halted (log 2). Safe: nothing an execution does is left out. -/
inductive Fault where
  /-- Raised by every access that fails the bounds check: fetch, data, stack (R191). Safe. -/
  | outOfBounds
  /-- Raised by decode on one of the 229 undefined opcode bytes, with the byte and the address it
  was fetched from (R192). Safe. -/
  | unknownInstruction (opcode : Byte) (pc : Word)
  /-- Raised by DIV exactly when `reg_b = 0` (R193). Safe. -/
  | divisionByZero
  /-- Raised by PUSH exactly when `sp = 0` (R194). Safe. -/
  | stackUnderflow
  /-- Raised by CALL and INT exactly when `sp < 2` (R195). Safe. -/
  | stackOverflow
deriving DecidableEq, Repr

/-- The refusals. No arm of `exec` refuses: every instruction of the table has its meaning. -/
inductive Refusal where
  /-- Raised by an arm of `exec` whose instruction has no meaning yet. No arm raises it. Safe. -/
  | notModelled (mnemonic : String)
deriving DecidableEq, Repr

/-- Construction, the only reset (70_reset_and_hazards.md R220, R221): every register 0, the state
Running, every byte of a Memory of `MEM_SIZE` bytes 0. -/
def State.construct (memSize : Config.MemSize) : State where
  pc := 0x0000
  acc := 0x00
  regA := 0x00
  regB := 0x00
  sp := 0x0000
  halted := false
  interruptsEnabled := false
  err := 0
  errOpcode := 0x00
  errPc := 0x0000
  mem := { size := memSize, cells := [] }

/-- The state after reset with the default `MEM_SIZE` (00_scope.md R6; log 1). -/
def State.reset : State := State.construct Config.defaultMemSize

end Sys2Proof.Machine
end

