-- ==== Sys2Proof/Machine/Ops.lean ====
section
/-! DEFINITION. The shared operations: the result of a sub-operation, the register writes, the
memory accesses and the byte fetch of the Processor, the stack pointer controller, and the error
entry (60_exceptions.md R198). There is no return from an error (60_exceptions.md R200), so no
operation stands beside the entry. -/

namespace Sys2Proof.Machine

/-- What a sub-operation leaves: a value and the state after it, or an error and the state at the
point where it was raised, with every earlier write kept (00_scope.md R12, 40_fetch_step.md R107). -/
inductive Result (α : Type) where
  | ok (v : α) (s : State)
  | raise (e : Fault) (s : State)
deriving DecidableEq, Repr

/-- Runs the next sub-operation; the first error ends the instruction (00_scope.md R12, R13). -/
def Result.bind {α β : Type} (r : Result α) (f : α → State → Result β) : Result β :=
  match r with
  | .ok v s => f v s
  | .raise e s => .raise e s

/-- `pc <- v` (10_state.md R21). -/
def State.setPc (s : State) (v : Word) : State := { s with pc := v }

/-- `acc <- v` (10_state.md R22). -/
def State.setAcc (s : State) (v : Byte) : State := { s with acc := v }

/-- `reg_a <- v` (10_state.md R23). -/
def State.setRegA (s : State) (v : Byte) : State := { s with regA := v }

/-- `reg_b <- v` (10_state.md R24). -/
def State.setRegB (s : State) (v : Byte) : State := { s with regB := v }

/-- `sp <- v` (10_state.md R25). -/
def State.setSp (s : State) (v : Word) : State := { s with sp := v }

/-- `halted <- v` (10_state.md R26). -/
def State.setHalted (s : State) (v : Bool) : State := { s with halted := v }

/-- `interrupts_enabled <- v` (10_state.md R27). -/
def State.setInterruptsEnabled (s : State) (v : Bool) : State := { s with interruptsEnabled := v }

/-- `err <- v` (10_state.md R30). -/
def State.setErr (s : State) (v : BitVec 3) : State := { s with err := v }

/-- `err_opcode <- op`, `err_pc <- p`, the payload of UnknownInstruction (10_state.md R30). -/
def State.setPayload (s : State) (op : Byte) (p : Word) : State :=
  { s with errOpcode := op, errPc := p }

/-- Replaces the Memory by what an access made of it. -/
def State.setMem (s : State) (m : Memory) : State := { s with mem := m }

/-- The codes of the error kinds in `err` (60_exceptions.md R190; the spec's own D12, log 5). -/
def Fault.code : Fault → BitVec 3
  | .outOfBounds => 1
  | .unknownInstruction _ _ => 2
  | .divisionByZero => 3
  | .stackUnderflow => 4
  | .stackOverflow => 5

/-- The error entry (60_exceptions.md R198): `halted <- 1`, `err <- code(E)`, and for
UnknownInstruction its payload; nothing else is written, nothing is pushed, `pc` stays. -/
def errorEntry (e : Fault) (s : State) : State :=
  match e with
  | .unknownInstruction op p => ((s.setHalted true).setErr e.code).setPayload op p
  | .outOfBounds | .divisionByZero | .stackUnderflow | .stackOverflow =>
    (s.setHalted true).setErr e.code

/-- The end of an instruction: it completed, or its error is entered (40_fetch_step.md R103). -/
def finish (r : Result Unit) : Host.Outcome State Fault Refusal :=
  match r with
  | .ok _ s => .next s
  | .raise e s => .next (errorEntry e s)

/-- `MemRead(a, 1)` by the Processor (20_memory.md R52). -/
def memRead (a : Word) (s : State) : Result Byte :=
  match s.mem.read a.toNat with
  | some v => .ok v s
  | none => .raise .outOfBounds s

/-- `MemWrite(a, 1, v)` by the Processor (20_memory.md R53). -/
def memWrite (a : Word) (v : Byte) (s : State) : Result Unit :=
  match s.mem.write a.toNat v with
  | some m => .ok () (s.setMem m)
  | none => .raise .outOfBounds s

/-- `MemWrite(a, 2, v)` by the Processor (20_memory.md R55). No instruction reads two bytes at
once (20_memory.md R59). -/
def memWrite16 (a : Word) (v : Word) (s : State) : Result Unit :=
  match s.mem.write16 a.toNat v with
  | some m => .ok () (s.setMem m)
  | none => .raise .outOfBounds s

/-- `Fetch8()` (40_fetch_step.md R100): the byte at `pc`, then `pc` advances modulo 65536. -/
def fetch8 (s : State) : Result Byte :=
  (memRead s.pc s).bind fun b s => .ok b (s.setPc (s.pc + 1))

/-- `Fetch16()` (40_fetch_step.md R101): two `Fetch8()`, low byte first. -/
def fetch16 (s : State) : Result Word :=
  (fetch8 s).bind fun lo s => (fetch8 s).bind fun hi s => .ok (wordOfBytes lo hi) s

/-- Checked decrement of `sp` by 1 (44_stack.md R165). -/
def spDecrement1 (s : State) : Result Unit :=
  if s.sp = 0 then .raise .stackUnderflow s else .ok () (s.setSp (s.sp - 1))

/-- Checked decrement of `sp` by 2 (44_stack.md R165). -/
def spDecrement2 (s : State) : Result Unit :=
  if s.sp.toNat < 2 then .raise .stackOverflow s else .ok () (s.setSp (s.sp - 2))

/-- Wrapping increment of `sp` by `k` (44_stack.md R165; the spec's own D8, log 9). -/
def spIncrement (k : Word) (s : State) : State := s.setSp (s.sp + k)

/-- The push of a byte: checked decrement, then the write at the new `sp` (44_stack.md R166). -/
def pushByte (v : Byte) (s : State) : Result Unit :=
  (spDecrement1 s).bind fun _ s => memWrite s.sp v s

/-- The pop of a byte: the read at `sp`, then the increment (44_stack.md R167). -/
def popByte (s : State) : Result Byte :=
  (memRead s.sp s).bind fun v s => .ok v (spIncrement 1 s)

/-- The push of the return address, which is the `pc` after the operand, and the jump
(43_control.md R155; 45_system.md R175). -/
def pushPcAndJump (target : Word) (s : State) : Result Unit :=
  (spDecrement2 s).bind fun _ s => (memWrite16 s.sp s.pc s).bind fun _ s => .ok () (s.setPc target)

end Sys2Proof.Machine
end

