-- ==== Sys2Proof/Machine/Operands.lean ====
section
/-! DEFINITION. The operand forms: none, an immediate byte, an absolute address
(30_encoding.md R81 to R83), and the one addressing mode, absolute (R83). -/

namespace Sys2Proof.Machine

/-- Fetches the operand bytes of the selected operation and makes the instruction
(30_encoding.md R84; 40_fetch_step.md R102, R108). -/
def fetchOperands (d : Descriptor) (s : State) : Result Instr :=
  match d with
  | .n instr => .ok instr s
  | .i instr => (fetch8 s).bind fun imm s => .ok (instr imm) s
  | .a instr => (fetch16 s).bind fun addr s => .ok (instr addr) s

/-- The effective address of a format A operand: the operand itself, not relative, scaled or
indexed (30_encoding.md R83). -/
def effectiveAddress (addr : Word) : Word := addr

/-- The data byte a format A operand names (41_load_store.md R120, 42_alu.md R130). -/
def dataOperand (addr : Word) (s : State) : Result Byte := memRead (effectiveAddress addr) s

/-- `acc <- f acc M[addr]`, the shape of LOAD and of the ALU operations with a memory operand
(41_load_store.md R120; 42_alu.md R130, R131, R134 to R136). -/
def accFromMemory (f : Byte → Byte → Byte) (addr : Word) (s : State) : Result Unit :=
  (dataOperand addr s).bind fun v s => .ok () (s.setAcc (f s.acc v))

end Sys2Proof.Machine
end

