-- ==== Sys2Proof/Machine/Alu.lean ====
section
/-! DEFINITION. ALU and register instructions (42_alu.md). -/

namespace Sys2Proof.Machine

/-- ADD: `acc <- acc +8 M[addr]` (42_alu.md R130). -/
def execAdd (addr : Word) (s : State) : Host.Outcome State Fault Refusal :=
  finish (accFromMemory aluAdd addr s)

/-- SUB: `acc <- acc -8 M[addr]`, accumulator minus memory (42_alu.md R131). -/
def execSub (addr : Word) (s : State) : Host.Outcome State Fault Refusal :=
  finish (accFromMemory aluSub addr s)

/-- INC: `acc <- acc +8 1` (42_alu.md R132). -/
def execInc (s : State) : Host.Outcome State Fault Refusal :=
  finish (.ok () (s.setAcc (aluAdd s.acc 1)))

/-- DEC: `acc <- acc -8 1` (42_alu.md R133). -/
def execDec (s : State) : Host.Outcome State Fault Refusal :=
  finish (.ok () (s.setAcc (aluSub s.acc 1)))

/-- AND: `acc <- acc & M[addr]` (42_alu.md R134). -/
def execAnd (addr : Word) (s : State) : Host.Outcome State Fault Refusal :=
  finish (accFromMemory aluAnd addr s)

/-- OR: `acc <- acc | M[addr]` (42_alu.md R135). -/
def execOr (addr : Word) (s : State) : Host.Outcome State Fault Refusal :=
  finish (accFromMemory aluOr addr s)

/-- XOR: `acc <- acc ^ M[addr]` (42_alu.md R136). -/
def execXor (addr : Word) (s : State) : Host.Outcome State Fault Refusal :=
  finish (accFromMemory aluXor addr s)

/-- MOV: `reg_b <- reg_a` (42_alu.md R137). -/
def execMov (s : State) : Host.Outcome State Fault Refusal :=
  finish (.ok () (s.setRegB s.regA))

/-- MUL: `acc <- reg_a *8 reg_b` (42_alu.md R138). -/
def execMul (s : State) : Host.Outcome State Fault Refusal :=
  finish (.ok () (s.setAcc (aluMul s.regA s.regB)))

/-- DIV: `acc <- reg_a div reg_b`, unsigned; DivisionByZero when `reg_b = 0` (42_alu.md R139). -/
def execDiv (s : State) : Host.Outcome State Fault Refusal :=
  finish <|
    match aluDiv s.regA s.regB with
    | none => .raise .divisionByZero s
    | some q => .ok () (s.setAcc q)

/-- CMP: the placeholder, no operation (42_alu.md R140; the spec's own D3, log 6). -/
def execCmp (s : State) : Host.Outcome State Fault Refusal :=
  finish (.ok () s)

end Sys2Proof.Machine
end

