-- ==== Sys2Proof/Machine/Flags.lean ====
section
/-! DEFINITION. The `flags` view (10_state.md R28). There are no condition codes: no instruction
records anything about its result (10_state.md R29), so there is no other flag computation. -/

namespace Sys2Proof.Machine

/-- `flags[0] = halted`, `flags[1] = interrupts_enabled`; a view, not state (10_state.md R28). -/
def State.flags (s : State) : BitVec 2 :=
  BitVec.ofBool s.interruptsEnabled ++ BitVec.ofBool s.halted

/-- The condition of JZ, the present value of `acc` (43_control.md R151); JNZ takes its inverse
(R152). -/
def State.accIsZero (s : State) : Bool := s.acc == 0

end Sys2Proof.Machine
end

