-- ==== Sys2Proof/Machine/Control.lean ====
section
/-! DEFINITION. Control transfer (43_control.md). A target is the operand itself and is not checked
when the transfer is made (R157). -/

namespace Sys2Proof.Machine

/-- JMP: `pc <- addr` (43_control.md R150). -/
def execJmp (addr : Word) (s : State) : Host.Outcome State Fault Refusal :=
  finish (.ok () (s.setPc addr))

/-- JZ: `pc <- addr` if `acc = 0` (43_control.md R151). -/
def execJz (addr : Word) (s : State) : Host.Outcome State Fault Refusal :=
  finish (.ok () (if s.accIsZero then s.setPc addr else s))

/-- JNZ: `pc <- addr` if `acc != 0` (43_control.md R152). -/
def execJnz (addr : Word) (s : State) : Host.Outcome State Fault Refusal :=
  finish (.ok () (if s.accIsZero then s else s.setPc addr))

/-- CALL: push the return address, `pc <- addr` (43_control.md R155). -/
def execCall (addr : Word) (s : State) : Host.Outcome State Fault Refusal :=
  finish (pushPcAndJump addr s)

/-- RET, the reference behaviour, which does not return: `sp <- sp +16 2`, then `pc` is written at
the new `sp`; `pc` is not loaded (43_control.md R156; 90_conflicts.md C1, C2; the spec's own D4,
log 7). -/
def execRet (s : State) : Host.Outcome State Fault Refusal :=
  let s' := spIncrement 2 s
  finish (memWrite16 s'.sp s'.pc s')

/-- JP: the placeholder, always taken (43_control.md R153; the spec's own D3, log 6). -/
def execJp (addr : Word) (s : State) : Host.Outcome State Fault Refusal :=
  finish (.ok () (s.setPc addr))

/-- JN: the placeholder, always taken (43_control.md R154; the spec's own D3, log 6). -/
def execJn (addr : Word) (s : State) : Host.Outcome State Fault Refusal :=
  finish (.ok () (s.setPc addr))

end Sys2Proof.Machine
end

