-- ==== Sys2Proof/Machine/LoadStore.lean ====
section
/-! DEFINITION. Load, store and load-immediate (41_load_store.md). Each meaning starts after the
instruction's bytes are fetched: `pc` is the address after it (40_fetch_step.md R108). -/

namespace Sys2Proof.Machine

/-- LOAD: `acc <- M[addr]` (41_load_store.md R120). -/
def execLoad (addr : Word) (s : State) : Host.Outcome State Fault Refusal :=
  finish (accFromMemory (fun _ v => v) addr s)

/-- STORE: `M[addr] <- acc` (41_load_store.md R121). -/
def execStore (addr : Word) (s : State) : Host.Outcome State Fault Refusal :=
  finish (memWrite (effectiveAddress addr) s.acc s)

/-- LDA: `acc <- imm` (41_load_store.md R122). -/
def execLda (imm : Byte) (s : State) : Host.Outcome State Fault Refusal :=
  finish (.ok () (s.setAcc imm))

end Sys2Proof.Machine
end

