-- ==== Sys2Proof/Machine/Stack.lean ====
section
/-! DEFINITION. The stack instructions (44_stack.md). -/

namespace Sys2Proof.Machine

/-- PUSH: checked decrement of `sp`, then `M[sp] <- reg_a` (44_stack.md R166). -/
def execPush (s : State) : Host.Outcome State Fault Refusal :=
  finish (pushByte s.regA s)

/-- POP: `reg_a <- M[sp]`, `sp <- sp +16 1` (44_stack.md R167). -/
def execPop (s : State) : Host.Outcome State Fault Refusal :=
  finish ((popByte s).bind fun v s => .ok () (s.setRegA v))

end Sys2Proof.Machine
end

