-- ==== Sys2Proof/Machine/System.lean ====
section
/-! DEFINITION. The system instructions (45_system.md). -/

namespace Sys2Proof.Machine

/-- INT: push the return address, `pc <- vec`; `interrupts_enabled` is neither read nor written
(45_system.md R175; the spec's own D5 to D7, log 8). -/
def execInt (vec : Word) (s : State) : Host.Outcome State Fault Refusal :=
  finish (pushPcAndJump vec s)

/-- CLI: `interrupts_enabled <- 0` (45_system.md R176). -/
def execCli (s : State) : Host.Outcome State Fault Refusal :=
  finish (.ok () (s.setInterruptsEnabled false))

/-- SEI: `interrupts_enabled <- 1` (45_system.md R177). -/
def execSei (s : State) : Host.Outcome State Fault Refusal :=
  finish (.ok () (s.setInterruptsEnabled true))

/-- HALT: `halted <- 1`, `err` stays (45_system.md R178). -/
def execHalt (s : State) : Host.Outcome State Fault Refusal :=
  finish (.ok () (s.setHalted true))

end Sys2Proof.Machine
end

