-- ==== Sys2Proof/Machine/Dispatch.lean ====
section
/-! DEFINITION. The dispatch: one arm per instruction (40_fetch_step.md R102; 30_encoding.md R85). -/

namespace Sys2Proof.Machine

def exec (i : Instr) (s : State) : Host.Outcome State Fault Refusal :=
  match i with
  | .load addr => Sys2Proof.Machine.execLoad addr s
  | .store addr => Sys2Proof.Machine.execStore addr s
  | .add addr => Sys2Proof.Machine.execAdd addr s
  | .sub addr => Sys2Proof.Machine.execSub addr s
  | .inc => Sys2Proof.Machine.execInc s
  | .dec => Sys2Proof.Machine.execDec s
  | .and addr => Sys2Proof.Machine.execAnd addr s
  | .or addr => Sys2Proof.Machine.execOr addr s
  | .xor addr => Sys2Proof.Machine.execXor addr s
  | .jmp addr => Sys2Proof.Machine.execJmp addr s
  | .jz addr => Sys2Proof.Machine.execJz addr s
  | .jnz addr => Sys2Proof.Machine.execJnz addr s
  | .lda imm => Sys2Proof.Machine.execLda imm s
  | .mov => Sys2Proof.Machine.execMov s
  | .mul => Sys2Proof.Machine.execMul s
  | .div => Sys2Proof.Machine.execDiv s
  | .cmp => Sys2Proof.Machine.execCmp s
  | .call addr => Sys2Proof.Machine.execCall addr s
  | .ret => Sys2Proof.Machine.execRet s
  | .jp addr => Sys2Proof.Machine.execJp addr s
  | .jn addr => Sys2Proof.Machine.execJn addr s
  | .int vec => Sys2Proof.Machine.execInt vec s
  | .cli => Sys2Proof.Machine.execCli s
  | .sei => Sys2Proof.Machine.execSei s
  | .push => Sys2Proof.Machine.execPush s
  | .pop => Sys2Proof.Machine.execPop s
  | .halt => Sys2Proof.Machine.execHalt s

end Sys2Proof.Machine
end

