-- ==== Sys2Proof/Machine/Fetch.lean ====
section
/-! DEFINITION. The fetch of one instruction: opcode, dispatch, operands (40_fetch_step.md R102,
R103, R108), and the placing of bytes where the next fetch reads them. -/

namespace Sys2Proof.Machine

/-- Fetches the opcode byte, selects the operation and fetches its operand bytes; an undefined
opcode raises UnknownInstruction with the byte and the address it was fetched from
(40_fetch_step.md R103; 60_exceptions.md R192). -/
def fetchInstr (s : State) : Result Instr :=
  (fetch8 s).bind fun op s' =>
    match descriptor op with
    | none => .raise (.unknownInstruction op s.pc) s'
    | some d => fetchOperands d s'

/-- The address of the `k`-th byte from `pc`, modulo 65536 (30_encoding.md R80, R89). -/
def State.codeAddr (s : State) (k : Nat) : Nat := (s.pc + BitVec.ofNat 16 k).toNat

/-- The `n` bytes from `pc` up, as memory holds them. -/
def State.codeBytes (s : State) (n : Nat) : List Byte :=
  (List.range n).map fun k => s.mem.get (s.codeAddr k)

/-- Stores bytes at the addresses from `p` up, modulo 65536, as the host's byte writes do; a byte
whose address is outside the array is left out. -/
def placeBytes (bytes : List Byte) (p : Word) (m : Memory) : Memory :=
  match bytes with
  | [] => m
  | b :: rest => placeBytes rest (p + 1) ((m.write p.toNat b).getD m)

end Sys2Proof.Machine
end

