-- ==== Sys2Proof/Machine/Step.lean ====
section
/-! DEFINITION. The step function (40_fetch_step.md R103) and the host's entry point that places an
instruction where the next step fetches it. -/

namespace Sys2Proof.Machine

/-- One pass of the run loop: in Halted nothing happens (40_fetch_step.md R104, R106; log 3), in
Running the instruction at `pc` is fetched and executed, or the error of its fetch is entered
(R103). -/
def step (s : State) : Host.Outcome State Fault Refusal :=
  if s.halted then .next s
  else
    match fetchInstr s with
    | .ok i s' => exec i s'
    | .raise e s' => .next (errorEntry e s')

/-- `s` in Running with the table word's bytes stored at `pc` (log 4): the host's pre-load of
70_reset_and_hazards.md R222. -/
def State.withFetchWord (s : State) (nbits w : Nat) : State :=
  (s.setHalted false).setMem (placeBytes (tableBytes nbits w) s.pc s.mem)

end Sys2Proof.Machine
end

