-- ==== Sys2Proof/Machine/Run.lean ====
section
/-! DEFINITION. The run loop `Run()` (40_fetch_step.md R104) under fuel. -/

namespace Sys2Proof.Machine

/-- Steps while `halted = 0` and answers with the final state, `none` when the fuel ends first: a
run need not terminate (40_fetch_step.md R104; log 17). -/
def run (fuel : Nat) (s : State) : Option State :=
  if s.halted then some s
  else
    match fuel with
    | 0 => none
    | k + 1 =>
      match step s with
      | .next s' => run k s'
      | .fault _ => none
      | .refused _ => none

/-- The result of `Run()`: the final `err` (40_fetch_step.md R104; the spec's own D20). -/
def runResult (fuel : Nat) (s : State) : Option (BitVec 3) := (run fuel s).map (·.err)

end Sys2Proof.Machine
end

