-- ==== Sys2Proof/Machine/HostInterface.lean ====
section
/-! DEFINITION. The host's moves (70_reset_and_hazards.md R223), which it makes while no run is in
progress (20_memory.md R68; log 16). They are no part of a step. Construction is
`State.construct`, run is `run`. -/

namespace Sys2Proof.Machine

/-- `write(a, b)`: a byte write with the bounds check; `none` tells the host OutOfBounds and the
state stays as it was (20_memory.md R68). -/
def hostWrite (a : Nat) (v : Byte) (s : State) : Option State := (s.mem.write a v).map s.setMem

/-- `write16(a, w)`: both bytes or neither (20_memory.md R55, R68). -/
def hostWrite16 (a : Nat) (v : Word) (s : State) : Option State := (s.mem.write16 a v).map s.setMem

/-- `read(a)` (20_memory.md R52). -/
def hostRead (a : Nat) (s : State) : Option Byte := s.mem.read a

/-- `read16(a)` (20_memory.md R54). -/
def hostRead16 (a : Nat) (s : State) : Option Word := s.mem.read16 a

/-- `size()`, which returns `MEM_SIZE` (20_memory.md R50). -/
def hostSize (s : State) : Nat := s.mem.size.val

/-- The registers the host may set before a run, each with a value of its width
(70_reset_and_hazards.md R223). -/
inductive Preset where
  | pc (v : Word)
  | acc (v : Byte)
  | regA (v : Byte)
  | regB (v : Byte)
  | sp (v : Word)
deriving DecidableEq, Repr

/-- Sets a register before a run; not after a run has ended, when the machine is Halted
(70_reset_and_hazards.md R223; log 16). -/
def hostPreset (p : Preset) (s : State) : Option State :=
  if s.halted then none
  else
    match p with
    | .pc v => some (s.setPc v)
    | .acc v => some (s.setAcc v)
    | .regA v => some (s.setRegA v)
    | .regB v => some (s.setRegB v)
    | .sp v => some (s.setSp v)

end Sys2Proof.Machine
end

