-- ==== Sys2Proof/Safety.lean ====
section
/-! DEFINITION. The terms that claims use: the running state, an access inside memory, the error a
halted state surfaces, the invariant of every step, and the ends of a run. -/

namespace Sys2Proof.Machine

/-- The run state Running (40_fetch_step.md R105). -/
abbrev State.running (s : State) : Prop := s.halted = false

/-- `a < MEM_SIZE`: the byte `a` exists (20_memory.md R51). -/
abbrev State.inMem (s : State) (a : Nat) : Prop := a < s.mem.size.val

/-- The error a state surfaces to the caller, read back from the error status (10_state.md R30,
60_exceptions.md R198); the codes 6 and 7 are never produced. -/
def State.surfacedError (s : State) : Option Fault :=
  match s.err.toNat with
  | 1 => some .outOfBounds
  | 2 => some (.unknownInstruction s.errOpcode s.errPc)
  | 3 => some .divisionByZero
  | 4 => some .stackUnderflow
  | 5 => some .stackOverflow
  | _ => none

/-- A run that ended by HALT (40_fetch_step.md R109). -/
abbrev State.cleanEnd (s : State) : Prop := s.halted = true ∧ s.err = 0

/-- What every step keeps: the memory is in canonical form; an error status is that of a halted
machine (40_fetch_step.md R105) and holds a code of R190; the payload registers are written by
UnknownInstruction only (10_state.md R30); and each error's state is that of 60_exceptions.md R192
to R195. -/
structure Inv (s : State) : Prop where
  memory : s.mem.wf
  errHalted : s.err ≠ 0 → s.halted = true
  errCode : s.err.toNat ≤ 5
  payload : s.err ≠ 2 → s.errOpcode = 0 ∧ s.errPc = 0
  unknown : s.err = 2 → (descriptor s.errOpcode).isNone = true ∧ s.pc = s.errPc + 1
  division : s.err = 3 → s.regB = 0
  underflow : s.err = 4 → s.sp = 0
  overflow : s.err = 5 → s.sp.toNat < 2

/-- Running, with the opcode byte `op` where the next fetch reads it. -/
abbrev State.fetches (s : State) (op : Byte) : Prop :=
  s.running ∧ s.inMem s.pc.toNat ∧ s.mem.get s.pc.toNat = op

/-- A step that fetches the opcode `op` executes `i` with `pc` one byte on (30_encoding.md R81). -/
def StepsFormatN (op : Byte) (i : Instr) : Prop :=
  ∀ s : State, s.fetches op → step s = exec i { s with pc := s.pc + 1 }

/-- A step that fetches the opcode `op` fetches one byte more and executes `i` of it; when that
byte is outside memory it raises OutOfBounds with `pc` at it (30_encoding.md R82). -/
def StepsFormatI (op : Byte) (i : Byte → Instr) : Prop :=
  ∀ s : State, s.fetches op →
    (s.inMem (s.pc + 1).toNat →
      step s = exec (i (s.mem.get (s.pc + 1).toNat)) { s with pc := s.pc + 2 }) ∧
    (¬ s.inMem (s.pc + 1).toNat →
      step s = .next (errorEntry .outOfBounds { s with pc := s.pc + 1 }))

/-- A step that fetches the opcode `op` fetches a low and a high byte, each at its own wrapped
`pc`, and executes `i` of the word `low + 256 * high`; when one of them is outside memory it
raises OutOfBounds with `pc` at that byte (30_encoding.md R83, 40_fetch_step.md R101). -/
def StepsFormatA (op : Byte) (i : Word → Instr) : Prop :=
  ∀ s : State, s.fetches op →
    (s.inMem (s.pc + 1).toNat → s.inMem (s.pc + 2).toNat →
      step s =
        exec
          (i (BitVec.ofNat 16
            ((s.mem.get (s.pc + 1).toNat).toNat + 256 * (s.mem.get (s.pc + 2).toNat).toNat)))
          { s with pc := s.pc + 3 }) ∧
    (¬ s.inMem (s.pc + 1).toNat →
      step s = .next (errorEntry .outOfBounds { s with pc := s.pc + 1 })) ∧
    (s.inMem (s.pc + 1).toNat → ¬ s.inMem (s.pc + 2).toNat →
      step s = .next (errorEntry .outOfBounds { s with pc := s.pc + 2 }))

/-- The 229 undefined opcode bytes (30_encoding.md R86). -/
abbrev UndefinedOpcode (op : Byte) : Prop :=
  op.toNat = 0x00 ∨ (0x05 ≤ op.toNat ∧ op.toNat ≤ 0x06) ∨ (0x0C ≤ op.toNat ∧ op.toNat ≤ 0x0F) ∨
    (0x21 ≤ op.toNat ∧ op.toNat ≤ 0xFE)

/-- `t` is `s` but for one byte of memory, `v` at `a`. -/
def StoresByte (s t : State) (a : Nat) (v : Byte) : Prop :=
  t = { s with mem := t.mem } ∧ t.mem.size = s.mem.size ∧ t.mem.get a = v ∧
    ∀ b, b ≠ a → t.mem.get b = s.mem.get b

/-- `t` is `s` but for the two bytes of the word `v`, little endian, at `a` and `a + 1`. -/
def StoresWord (s t : State) (a : Nat) (v : Word) : Prop :=
  t = { s with mem := t.mem } ∧ t.mem.size = s.mem.size ∧
    (t.mem.get a).toNat = v.toNat % 256 ∧ (t.mem.get (a + 1)).toNat = v.toNat / 256 ∧
    ∀ b, b ≠ a → b ≠ a + 1 → t.mem.get b = s.mem.get b

end Sys2Proof.Machine
end

