-- ==== Sys2Proof/WellFormed.lean ====
section
/-! DEFINITION. What it is for a string of bytes to be one instruction (30_encoding.md R80, R84,
R86). No operand value is reserved (R88), so a term of `Instr` is always well formed; the checks
are on bytes. -/

namespace Sys2Proof

/-- The first check: there is an opcode byte (R80). -/
def hasOpcode (bytes : List Byte) : Bool := !bytes.isEmpty

/-- The second check: the opcode byte is one of the 27 defined values (R85, R86). -/
def opcodeDefined : List Byte → Bool
  | [] => false
  | op :: _ => (descriptor op).isSome

/-- The third check: the string is as long as its opcode says (R84). -/
def lengthExact (bytes : List Byte) : Bool :=
  match bytes with
  | [] => false
  | op :: _ =>
    match descriptor op with
    | none => false
    | some d => bytes.length == d.format.length

/-- A string of bytes is exactly one instruction. -/
def wellFormedBytes (bytes : List Byte) : Bool :=
  hasOpcode bytes && opcodeDefined bytes && lengthExact bytes

/-- An instruction is well formed when its bytes are. -/
abbrev Instr.WellFormed (instr : Instr) : Prop := wellFormedBytes (encode instr) = true

end Sys2Proof
end

