-- ==== Sys2Proof/Certificates/Slice0/Obligations.lean ====
section
/-! DEFINITION. The statements for the provers. Each says in its docstring which sentence of the
spec it formalises, and where it rests on a choice. `errorEntry e` is what the spec's
`raise e` does to the state at that point (00_scope.md R12); what the entry writes is stated in
`ErrorEntryWrites`; that the state after it is the answer of `step` and `exec` is the model's
choice (log 2). An execution meaning starts with `pc` after the instruction's bytes; the
clauses `StepsFormatN`, `StepsFormatI` and `StepsFormatA` say how a step gets there. -/

open Sys2Proof Sys2Proof.Machine

/-! ### Encoding -/

/-- 30_encoding.md R85: every row of the opcode map, and nothing else, is an instruction. -/
def Obligations.OpcodeMapRows : Prop :=
  (∀ (lo hi : Byte) (rest : List Byte) (row : Byte × (Word → Instr)),
    row ∈ ([(0x01, .load), (0x02, .store), (0x03, .add), (0x04, .sub), (0x09, .and), (0x0A, .or),
      (0x0B, .xor), (0x10, .jmp), (0x11, .jz), (0x12, .jnz), (0x18, .call), (0x1A, .jp),
      (0x1B, .jn), (0x1C, .int)] : List (Byte × (Word → Instr))) →
    decode (row.1 :: lo :: hi :: rest) =
      .ok (row.2 (BitVec.ofNat 16 (lo.toNat + 256 * hi.toNat)), rest)) ∧
  (∀ (imm : Byte) (rest : List Byte), decode (0x13 :: imm :: rest) = .ok (.lda imm, rest)) ∧
  (∀ (rest : List Byte) (row : Byte × Instr),
    row ∈ ([(0x07, .inc), (0x08, .dec), (0x14, .mov), (0x15, .mul), (0x16, .div), (0x17, .cmp),
      (0x19, .ret), (0x1D, .cli), (0x1E, .sei), (0x1F, .push), (0x20, .pop),
      (0xFF, .halt)] : List (Byte × Instr)) →
    decode (row.1 :: rest) = .ok (row.2, rest)) ∧
  (∀ (op : Byte) (rest : List Byte), UndefinedOpcode op →
    decode (op :: rest) = .error (.unknownOpcode op))

/-- Decode and encode agree in both directions: a string decodes to an instruction exactly when it
begins with that instruction's bytes. -/
def Obligations.DecodeIffEncode : Prop :=
  ∀ (bytes : List Byte) (i : Instr) (rest : List Byte),
    decode bytes = .ok (i, rest) ↔ bytes = encode i ++ rest

/-- Every instruction is well formed (30_encoding.md section 3, no operand value is reserved), and
a string passes the three checks of WellFormed exactly when it is one whole instruction. -/
def Obligations.WellFormedBytesDecode : Prop :=
  (∀ i : Instr, i.WellFormed) ∧
  ∀ bytes : List Byte, wellFormedBytes bytes = true ↔ ∃ i, decode bytes = .ok (i, [])

/-- A sanity statement on a few words of the spec's own listings (95_test_vectors.md): `13 0A`,
`02 20 00` and `FF` stand in P1, `12 05 00` in P2, `1F` in P3, `1C 20 00` in P6, `01 34 12` in L1
and in the example of LOAD (41_load_store.md), the undefined byte `00` in P5 and F8. -/
def Obligations.DecodeOfListedWords : Prop :=
  decode [0x13, 0x0A] = .ok (.lda 10, []) ∧ decode [0x02, 0x20, 0x00] = .ok (.store 0x0020, []) ∧
  decode [0x12, 0x05, 0x00] = .ok (.jnz 0x0005, []) ∧ decode [0x1F] = .ok (.push, []) ∧
  decode [0x1C, 0x20, 0x00] = .ok (.int 0x0020, []) ∧ decode [0xFF] = .ok (.halt, []) ∧
  decode [0x01, 0x34, 0x12] = .ok (.load 0x1234, []) ∧ decode [0x00] = .error (.unknownOpcode 0x00)

/-! ### Memory -/

/-- 20_memory.md R52, "fails with `OutOfBounds` if `address >= size`". -/
def Obligations.ByteReadContract : Prop :=
  (∀ (m : Memory) (a : Nat), m.read a = if a < m.size.val then some (m.get a) else none) ∧
  ∀ (a : Word) (s : State), memRead a s =
    if s.inMem a.toNat then .ok (s.mem.get a.toNat) s else .raise .outOfBounds s

/-- 20_memory.md R53: refused outside memory, memory unchanged; else exactly that byte changes. -/
def Obligations.ByteWriteContract : Prop :=
  ∀ (a : Word) (v : Byte) (s : State),
    (s.inMem a.toNat → ∃ t, memWrite a v s = .ok () t ∧ StoresByte s t a.toNat v) ∧
    (¬ s.inMem a.toNat → memWrite a v s = .raise .outOfBounds s ∧ s.mem.write a.toNat v = none)

/-- 20_memory.md R55: both bytes, low at the address, or neither; at `MEM_SIZE - 1` neither. -/
def Obligations.WordWriteWholeOrNothing : Prop :=
  ∀ (a : Word) (v : Word) (s : State),
    (s.inMem (a.toNat + 1) → ∃ t, memWrite16 a v s = .ok () t ∧ StoresWord s t a.toNat v) ∧
    (¬ s.inMem (a.toNat + 1) →
      memWrite16 a v s = .raise .outOfBounds s ∧ s.mem.write16 a.toNat v = none)

/-- 20_memory.md R69: what is written is read back, at both widths. -/
def Obligations.MemoryRoundTrip : Prop :=
  ∀ (m : Memory) (a : Nat),
    (∀ v : Word, a + 1 < m.size.val → (m.write16 a v).bind (·.read16 a) = some v) ∧
    (∀ b : Byte, a < m.size.val → (m.write a b).bind (·.read a) = some b)

/-- Mixed widths see the little-endian bytes (20_memory.md section 2, an inference of the spec). -/
def Obligations.MixedWidthBytes : Prop :=
  ∀ (m : Memory) (a : Nat), a + 1 < m.size.val →
    (∀ v : Word, (m.write16 a v).bind (·.read a) = some (BitVec.ofNat 8 (v.toNat % 256)) ∧
      (m.write16 a v).bind (·.read (a + 1)) = some (BitVec.ofNat 8 (v.toNat / 256))) ∧
    ∀ lo hi : Byte, ((m.write a lo).bind (·.write (a + 1) hi)).bind (·.read16 a) =
      some (BitVec.ofNat 16 (lo.toNat + 256 * hi.toNat))

/-- A word access at 0xFFFF fails for every `MEM_SIZE` (20_memory.md section 1, the spec's own
decision D16, log 14). -/
def Obligations.WordAccessAtTopFails : Prop :=
  ∀ (m : Memory) (v : Word), m.read16 0xFFFF = none ∧ m.write16 0xFFFF v = none

/-- Two memories of one size in canonical form that read alike at every address are the same data
(the model's own canonical form of the array). -/
def Obligations.EqualReadsEqualMemory : Prop :=
  ∀ m m' : Memory, m.wf → m'.wf → m.size = m'.size → (∀ a, m.get a = m'.get a) → m = m'

/-! ### Fetch, step, run loop -/

/-- `Fetch16()` (40_fetch_step.md section 1): two byte fetches, each with its own bounds check at
its own wrapped `pc`; at 0xFFFF the second byte comes from 0x0000, where a word read would have
failed (the last clause rests on the spec's own decision D16, log 14). -/
def Obligations.FetchSixteen : Prop :=
  ∀ s : State,
    (s.inMem s.pc.toNat → s.inMem (s.pc + 1).toNat →
      fetch16 s =
        .ok (BitVec.ofNat 16
            ((s.mem.get s.pc.toNat).toNat + 256 * (s.mem.get (s.pc + 1).toNat).toNat))
          { s with pc := s.pc + 2 }) ∧
    (¬ s.inMem s.pc.toNat → fetch16 s = .raise .outOfBounds s) ∧
    (s.inMem s.pc.toNat → ¬ s.inMem (s.pc + 1).toNat →
      fetch16 s = .raise .outOfBounds { s with pc := s.pc + 1 }) ∧
    (s.mem.size.val = 65536 → s.pc = 0xFFFF →
      fetch16 s =
        .ok (BitVec.ofNat 16 ((s.mem.get 0xFFFF).toNat + 256 * (s.mem.get 0).toNat))
          { s with pc := 0x0001 } ∧
      s.mem.read16 0xFFFF = none)

/-- `Fetch8()`: the read first, then `pc` advances modulo 65536 (40_fetch_step.md section 1; that a
failing fetch leaves `pc` is an inference of the spec). -/
def Obligations.FetchEight : Prop :=
  ∀ s : State,
    (s.inMem s.pc.toNat → ∃ t, fetch8 s = .ok (s.mem.get s.pc.toNat) t ∧
      t = { s with pc := t.pc } ∧ t.pc.toNat = (s.pc.toNat + 1) % 65536) ∧
    (¬ s.inMem s.pc.toNat → fetch8 s = .raise .outOfBounds s)

/-- A step runs the decoded instruction, with `pc` past its bytes (40_fetch_step.md section 3). -/
def Obligations.StepRunsDecodedInstruction : Prop :=
  ∀ (s : State) (i : Instr) (rest : List Byte),
    s.running → decode (s.codeBytes 3) = .ok (i, rest) →
    (∀ k, k < i.length → s.inMem (s.codeAddr k)) →
    step s = exec i { s with pc := s.pc + BitVec.ofNat 16 i.length }

/-- The states after an error of the fetch (60_exceptions.md section 1; codes and payload are the
spec's own decisions D12, D13, log 5 and 13): the opcode byte outside memory, an undefined opcode,
the first and the second operand byte outside memory. -/
def Obligations.StepFetchErrors : Prop :=
  ∀ s : State, s.running →
    (¬ s.inMem s.pc.toNat → step s = .next { s with halted := true, err := 1 }) ∧
    (s.inMem s.pc.toNat → UndefinedOpcode (s.mem.get s.pc.toNat) →
      step s = .next { s with
        pc := s.pc + 1, halted := true, err := 2
        errOpcode := s.mem.get s.pc.toNat, errPc := s.pc }) ∧
    (∀ d, s.inMem s.pc.toNat → descriptor (s.mem.get s.pc.toNat) = some d → d.format ≠ .n →
      ¬ s.inMem (s.pc + 1).toNat →
      step s = .next { s with pc := s.pc + 1, halted := true, err := 1 }) ∧
    (∀ d, s.inMem s.pc.toNat → descriptor (s.mem.get s.pc.toNat) = some d → d.format = .a →
      s.inMem (s.pc + 1).toNat → ¬ s.inMem (s.pc + 2).toNat →
      step s = .next { s with pc := s.pc + 2, halted := true, err := 1 })

/-- Halted is idempotent (40_fetch_step.md section 4; the result `err` is the spec's own D20, and
that a step of the model answers a Halted state with itself is log 3). -/
def Obligations.HaltedStaysAsItIs : Prop :=
  ∀ (s : State) (fuel : Nat), s.halted = true →
    step s = .next s ∧ run fuel s = some s ∧ runResult fuel s = some s.err

/-- Every step answers a next state: that is the model's choice, for a step in Halted (log 3) and
for an error, which is taken as the Halted next state of its entry (log 2). And the run states
change only as 40_fetch_step.md section 4 lists: still Running without an error, Halted without one
by HALT, or Halted with an error. -/
def Obligations.RunStateTransitions : Prop :=
  (∀ s : State, ∃ t, step s = .next t) ∧
  ∀ s t : State, s.running → s.err = 0 → step s = .next t →
    (t.running ∧ t.err = 0) ∨ (t.cleanEnd ∧ s.fetches 0xFF) ∨ (t.halted = true ∧ t.err ≠ 0)

/-- A run that ends does so in Halted, at the first such state: more fuel gives the same end, and
the memory keeps its size (40_fetch_step.md section 4; fuel is the model's, log 17). -/
def Obligations.RunEndsOnce : Prop :=
  ∀ (fuel : Nat) (s t : State), run fuel s = some t →
    t.halted = true ∧ t.mem.size = s.mem.size ∧ ∀ more, run (fuel + more) s = some t

/-- The error entry writes `halted`, `err` and, for UnknownInstruction, the payload, and nothing
else; the error can be read back (60_exceptions.md section 4; the registers and codes are the
spec's own D12, that the bit `halted` is set its D21; log 5 and 15). -/
def Obligations.ErrorEntryWrites : Prop :=
  ∀ s : State,
    errorEntry .outOfBounds s = { s with halted := true, err := 1 } ∧
    (∀ op p, errorEntry (.unknownInstruction op p) s =
      { s with halted := true, err := 2, errOpcode := op, errPc := p }) ∧
    errorEntry .divisionByZero s = { s with halted := true, err := 3 } ∧
    errorEntry .stackUnderflow s = { s with halted := true, err := 4 } ∧
    errorEntry .stackOverflow s = { s with halted := true, err := 5 } ∧
    ∀ e, (errorEntry e s).surfacedError = some e

/-! ### Reset and the host -/

/-- The state after construction (10_state.md section 6; `err`, `err_opcode`, `err_pc` are the
spec's own D12, the default size its D1, log 1 and 5). -/
def Obligations.ConstructionValues : Prop :=
  (∀ n : Config.MemSize,
    (∃ m, State.construct n =
      { pc := 0x0000, acc := 0x00, regA := 0x00, regB := 0x00, sp := 0x0000, halted := false,
        interruptsEnabled := false, err := 0, errOpcode := 0x00, errPc := 0x0000, mem := m } ∧
      m.size = n ∧ ∀ a, a < n.val → m.read a = some 0x00)) ∧
  State.reset = State.construct 65536

/-- A run straight after reset ends in the first step (70_reset_and_hazards.md section 1, an
inference of the spec). -/
def Obligations.FirstStepOfUnloadedMachine : Prop :=
  ∀ n : Config.MemSize,
    step (State.construct n) =
      if n.val = 0 then .next { State.construct n with halted := true, err := 1 }
      else .next { State.construct n with
        pc := 1, halted := true, err := 2, errOpcode := 0x00, errPc := 0x0000 }

/-- The table word placed by `withFetchWord` is what the next step runs (the model's own, log 4). -/
def Obligations.PlacedWordRunsNext : Prop :=
  ∀ (s : State) (nbits w : Nat) (i : Instr),
    decodeTableWord nbits w = some i →
    s.inMem s.pc.toNat → s.inMem (s.pc + 1).toNat → s.inMem (s.pc + 2).toNat →
    step (s.withFetchWord nbits w) =
      exec i { s.withFetchWord nbits w with pc := s.pc + BitVec.ofNat 16 i.length }

/-- The host's moves (70_reset_and_hazards.md section 2, the spec's own D15, log 16): a write
inside memory changes only memory, a refused one is told and halts nothing, a preset changes its
register alone and needs a machine that has not halted. -/
def Obligations.HostMoves : Prop :=
  ∀ s : State,
    (∀ a v, s.inMem a → ∃ t, hostWrite a v s = some t ∧ StoresByte s t a v ∧ hostRead a t = some v) ∧
    (∀ a v, ¬ s.inMem a → hostWrite a v s = none ∧ hostRead a s = none) ∧
    (∀ a v, s.inMem (a + 1) →
      ∃ t, hostWrite16 a v s = some t ∧ StoresWord s t a v ∧ hostRead16 a t = some v) ∧
    (∀ a v, ¬ s.inMem (a + 1) → hostWrite16 a v s = none ∧ hostRead16 a s = none) ∧
    (∀ v, s.running → hostPreset (.pc v) s = some { s with pc := v } ∧
      hostPreset (.sp v) s = some { s with sp := v }) ∧
    (∀ v, s.running → hostPreset (.acc v) s = some { s with acc := v } ∧
      hostPreset (.regA v) s = some { s with regA := v } ∧
      hostPreset (.regB v) s = some { s with regB := v }) ∧
    (∀ p, s.halted = true → hostPreset p s = none) ∧ hostSize s = s.mem.size.val

/-! ### Load and store -/

/-- 41_load_store.md R120. -/
def Obligations.LoadInstruction : Prop :=
  StepsFormatA 0x01 .load ∧ ∀ (addr : Word) (s : State),
    (s.inMem addr.toNat →
      exec (.load addr) s = .next { s with acc := s.mem.get addr.toNat }) ∧
    (¬ s.inMem addr.toNat → exec (.load addr) s = .next (errorEntry .outOfBounds s))

/-- 41_load_store.md R121. -/
def Obligations.StoreInstruction : Prop :=
  StepsFormatA 0x02 .store ∧ ∀ (addr : Word) (s : State),
    (s.inMem addr.toNat →
      ∃ t, exec (.store addr) s = .next t ∧ StoresByte s t (effectiveAddress addr).toNat s.acc) ∧
    (¬ s.inMem addr.toNat → exec (.store addr) s = .next (errorEntry .outOfBounds s))

/-- 41_load_store.md R122. -/
def Obligations.LdaInstruction : Prop :=
  StepsFormatI 0x13 .lda ∧ ∀ (imm : Byte) (s : State),
    exec (.lda imm) s = .next { s with acc := imm }

/-! ### ALU -/

/-- 42_alu.md R130, R131: the sum and the difference, accumulator minus memory, modulo 256. -/
def Obligations.AddSubInstructions : Prop :=
  StepsFormatA 0x03 .add ∧ StepsFormatA 0x04 .sub ∧ ∀ (addr : Word) (s : State),
    (s.inMem addr.toNat →
      (∃ v, exec (.add addr) s = .next { s with acc := v } ∧
        v.toNat = (s.acc.toNat + (s.mem.get addr.toNat).toNat) % 256) ∧
      (∃ v, exec (.sub addr) s = .next { s with acc := v } ∧
        (v.toNat : Int) = ((s.acc.toNat : Int) - (s.mem.get addr.toNat).toNat) % 256)) ∧
    (¬ s.inMem addr.toNat → exec (.add addr) s = .next (errorEntry .outOfBounds s) ∧
      exec (.sub addr) s = .next (errorEntry .outOfBounds s))

/-- 42_alu.md R134, R135, R136: bit by bit. -/
def Obligations.AndOrXorInstructions : Prop :=
  StepsFormatA 0x09 .and ∧ StepsFormatA 0x0A .or ∧ StepsFormatA 0x0B .xor ∧
  ∀ (addr : Word) (s : State),
    (s.inMem addr.toNat →
      (∃ v, exec (.and addr) s = .next { s with acc := v } ∧
        ∀ k, v.getLsbD k = (s.acc.getLsbD k && (s.mem.get addr.toNat).getLsbD k)) ∧
      (∃ v, exec (.or addr) s = .next { s with acc := v } ∧
        ∀ k, v.getLsbD k = (s.acc.getLsbD k || (s.mem.get addr.toNat).getLsbD k)) ∧
      (∃ v, exec (.xor addr) s = .next { s with acc := v } ∧
        ∀ k, v.getLsbD k = (s.acc.getLsbD k != (s.mem.get addr.toNat).getLsbD k))) ∧
    (¬ s.inMem addr.toNat → exec (.and addr) s = .next (errorEntry .outOfBounds s) ∧
      exec (.or addr) s = .next (errorEntry .outOfBounds s) ∧
      exec (.xor addr) s = .next (errorEntry .outOfBounds s))

/-- 42_alu.md R132, R133. -/
def Obligations.IncDecInstructions : Prop :=
  StepsFormatN 0x07 .inc ∧ StepsFormatN 0x08 .dec ∧ ∀ s : State,
    (∃ v, exec .inc s = .next { s with acc := v } ∧ v.toNat = (s.acc.toNat + 1) % 256) ∧
    (∃ v, exec .dec s = .next { s with acc := v } ∧
      (v.toNat : Int) = ((s.acc.toNat : Int) - 1) % 256)

/-- 42_alu.md R137. -/
def Obligations.MovInstruction : Prop :=
  StepsFormatN 0x14 .mov ∧ ∀ s : State, exec .mov s = .next { s with regB := s.regA }

/-- 42_alu.md R138. -/
def Obligations.MulInstruction : Prop :=
  StepsFormatN 0x15 .mul ∧ ∀ s : State,
    ∃ v, exec .mul s = .next { s with acc := v } ∧
      v.toNat = (s.regA.toNat * s.regB.toNat) % 256

/-- DIV (42_alu.md section 4): the floor of the quotient of the naturals, DivisionByZero exactly
when `reg_b` is 0. That division is unsigned is the spec's own decision D9 (log 10). -/
def Obligations.DivInstruction : Prop :=
  StepsFormatN 0x16 .div ∧ ∀ s : State,
    (s.regB ≠ 0 → ∃ v, exec .div s = .next { s with acc := v } ∧
      v.toNat = s.regA.toNat / s.regB.toNat) ∧
    (s.regB = 0 → exec .div s = .next (errorEntry .divisionByZero s))

/-- CMP changes nothing (42_alu.md section 4; the spec's own decision D3, log 6). -/
def Obligations.CmpInstruction : Prop :=
  StepsFormatN 0x17 .cmp ∧ ∀ s : State, exec .cmp s = .next s

/-! ### Control transfer -/

/-- 43_control.md R150. -/
def Obligations.JmpInstruction : Prop :=
  StepsFormatA 0x10 .jmp ∧ ∀ (addr : Word) (s : State),
    exec (.jmp addr) s = .next { s with pc := addr }

/-- A jump to an address outside memory succeeds and the next step fails with `pc` still the target
(43_control.md section 1; `err` is the spec's own D12, log 5). -/
def Obligations.JumpTargetCheckedAtNextFetch : Prop :=
  ∀ (addr : Word) (s : State), s.running → ¬ s.inMem addr.toNat →
    ∃ t, exec (.jmp addr) s = .next t ∧ t.running ∧ t.pc = addr ∧
      step t = .next { s with pc := addr, halted := true, err := 1 }

/-- JZ and JNZ test the present `acc`; the operand is fetched whether or not the jump is taken
(43_control.md section 2; the order is the spec's own decision D11, log 12, and that they test
`acc` and no flag its D2 and D3, log 6). -/
def Obligations.JzJnzInstructions : Prop :=
  StepsFormatA 0x11 .jz ∧ StepsFormatA 0x12 .jnz ∧ ∀ (addr : Word) (s : State),
    (s.acc.toNat = 0 → exec (.jz addr) s = .next { s with pc := addr } ∧
      exec (.jnz addr) s = .next s) ∧
    (s.acc.toNat ≠ 0 → exec (.jz addr) s = .next s ∧
      exec (.jnz addr) s = .next { s with pc := addr })

/-- JP and JN always jump, exactly as JMP (43_control.md section 2; the spec's own decision D3,
log 6). -/
def Obligations.JpJnInstructions : Prop :=
  StepsFormatA 0x1A .jp ∧ StepsFormatA 0x1B .jn ∧ ∀ (addr : Word) (s : State),
    exec (.jp addr) s = .next { s with pc := addr } ∧
    exec (.jn addr) s = .next { s with pc := addr } ∧
    exec (.jp addr) s = exec (.jmp addr) s ∧ exec (.jn addr) s = exec (.jmp addr) s

/-- CALL (43_control.md section 3): the checks in their order, the pushed return address, the jump.
The name StackOverflow is the spec's own decision D23, that a failed write leaves `sp` decremented
its D10 (log 11). -/
def Obligations.CallInstruction : Prop :=
  StepsFormatA 0x18 .call ∧ ∀ (addr : Word) (s : State),
    (s.sp.toNat < 2 → exec (.call addr) s = .next (errorEntry .stackOverflow s)) ∧
    (2 ≤ s.sp.toNat → s.inMem ((s.sp - 2).toNat + 1) →
      ∃ t, exec (.call addr) s = .next t ∧ (s.sp - 2).toNat = s.sp.toNat - 2 ∧
        StoresWord { s with sp := s.sp - 2, pc := addr } t (s.sp - 2).toNat s.pc) ∧
    (2 ≤ s.sp.toNat → ¬ s.inMem ((s.sp - 2).toNat + 1) →
      exec (.call addr) s = .next (errorEntry .outOfBounds { s with sp := s.sp - 2 }))

/-- RET does not return (43_control.md section 3; the spec's own decisions D4, D8, D10, log 7, 9
and 11): `sp` goes up by 2 modulo 65536, `pc` is written at the new `sp` and not loaded. -/
def Obligations.RetInstruction : Prop :=
  StepsFormatN 0x19 .ret ∧ ∀ s : State,
    (s.inMem ((s.sp + 2).toNat + 1) →
      ∃ t, exec .ret s = .next t ∧ (s.sp + 2).toNat = (s.sp.toNat + 2) % 65536 ∧
        StoresWord { s with sp := s.sp + 2 } t (s.sp + 2).toNat s.pc) ∧
    (¬ s.inMem ((s.sp + 2).toNat + 1) →
      exec .ret s = .next (errorEntry .outOfBounds { s with sp := s.sp + 2 }))

/-- A RET after a CALL brings `sp` back, goes on after itself, overwrites the caller's two bytes at
`sp` and leaves the pushed return address unread (43_control.md section 3, 70_reset_and_hazards.md
section 3; the spec's own decision D4, log 7). -/
def Obligations.RetAfterCallDoesNotReturn : Prop :=
  ∀ (s : State) (addr q : Word), 2 ≤ s.sp.toNat → s.inMem (s.sp.toNat + 1) →
    ∃ t u, exec (.call addr) s = .next t ∧ exec .ret { t with pc := q } = .next u ∧
      u = { s with pc := q, mem := u.mem } ∧
      (u.mem.get s.sp.toNat).toNat = q.toNat % 256 ∧
      (u.mem.get (s.sp.toNat + 1)).toNat = q.toNat / 256 ∧
      (u.mem.get (s.sp.toNat - 2)).toNat = s.pc.toNat % 256 ∧
      (u.mem.get (s.sp.toNat - 1)).toNat = s.pc.toNat / 256

/-! ### Stack -/

/-- PUSH (44_stack.md section 2; that a failed write leaves `sp` decremented is the spec's own
decision D10, log 11). -/
def Obligations.PushInstruction : Prop :=
  StepsFormatN 0x1F .push ∧ ∀ s : State,
    (s.sp.toNat = 0 → exec .push s = .next (errorEntry .stackUnderflow s)) ∧
    (1 ≤ s.sp.toNat → s.inMem (s.sp - 1).toNat →
      ∃ t, exec .push s = .next t ∧ (s.sp - 1).toNat = s.sp.toNat - 1 ∧
        StoresByte { s with sp := s.sp - 1 } t (s.sp - 1).toNat s.regA) ∧
    (1 ≤ s.sp.toNat → ¬ s.inMem (s.sp - 1).toNat →
      exec .push s = .next (errorEntry .outOfBounds { s with sp := s.sp - 1 }))

/-- POP (44_stack.md section 2; that the increment wraps is the spec's own decision D8, log 9). -/
def Obligations.PopInstruction : Prop :=
  StepsFormatN 0x20 .pop ∧ ∀ s : State,
    (s.inMem s.sp.toNat →
      ∃ p, exec .pop s = .next { s with regA := s.mem.get s.sp.toNat, sp := p } ∧
        p.toNat = (s.sp.toNat + 1) % 65536) ∧
    (¬ s.inMem s.sp.toNat → exec .pop s = .next (errorEntry .outOfBounds s))

/-- PUSH then POP restores `reg_a` and `sp`, and changes memory only below `sp` (44_stack.md
section 2, the source's stack scenario). -/
def Obligations.PushPopRestores : Prop :=
  ∀ s : State, 1 ≤ s.sp.toNat → s.inMem (s.sp - 1).toNat →
    ∃ t u, exec .push s = .next t ∧ exec .pop t = .next u ∧
      StoresByte s u (s.sp - 1).toNat s.regA

/-! ### System -/

/-- INT is CALL under another opcode and neither reads nor writes `interrupts_enabled`
(45_system.md; the spec's own decisions D5, D6, D7, D10, log 8 and 11). -/
def Obligations.IntInstruction : Prop :=
  StepsFormatA 0x1C .int ∧ ∀ (vec : Word) (s : State),
    (s.sp.toNat < 2 → exec (.int vec) s = .next (errorEntry .stackOverflow s)) ∧
    (2 ≤ s.sp.toNat → s.inMem ((s.sp - 2).toNat + 1) →
      ∃ t, exec (.int vec) s = .next t ∧
        StoresWord { s with sp := s.sp - 2, pc := vec } t (s.sp - 2).toNat s.pc) ∧
    (2 ≤ s.sp.toNat → ¬ s.inMem ((s.sp - 2).toNat + 1) →
      exec (.int vec) s = .next (errorEntry .outOfBounds { s with sp := s.sp - 2 })) ∧
    exec (.int vec) s = exec (.call vec) s

/-- CLI and SEI write the flag and nothing else; `flags` shows it in bit 1 and `halted` in bit 0
(45_system.md; 10_state.md section 4, where the view is the spec's own decision D2). -/
def Obligations.CliSeiInstructions : Prop :=
  StepsFormatN 0x1D .cli ∧ StepsFormatN 0x1E .sei ∧ ∀ s : State,
    exec .cli s = .next { s with interruptsEnabled := false } ∧
    exec .sei s = .next { s with interruptsEnabled := true } ∧
    s.flags.getLsbD 0 = s.halted ∧ s.flags.getLsbD 1 = s.interruptsEnabled

/-- 45_system.md R178: HALT sets `halted`, leaves `err`, and the run loop executes nothing more. -/
def Obligations.HaltInstruction : Prop :=
  StepsFormatN 0xFF .halt ∧ ∀ s : State,
    ∃ t, exec .halt s = .next t ∧ t = { s with halted := true } ∧ ∀ fuel, run fuel t = some t

/-! ### The whole machine -/

/-- Every step keeps the invariant `Inv`: memory in canonical form, the error status legal and that
of a halted machine, each error's state as the spec lists it (60_exceptions.md section 1;
10_state.md section 4; rests on the spec's own decisions D12 and D13, log 5 and 13). -/
def Obligations.StepKeepsInvariant : Prop :=
  ∀ s t : State, Inv s → step s = .next t → Inv t

/-- The invariant holds after construction, for every `MEM_SIZE`. -/
def Obligations.ConstructionHasInvariant : Prop :=
  (∀ n : Config.MemSize, Inv (State.construct n)) ∧ Inv State.reset

/-- The host's moves keep the invariant (70_reset_and_hazards.md section 2; log 16). -/
def Obligations.HostMovesKeepInvariant : Prop :=
  ∀ s t : State, Inv s →
    ((∃ a v, hostWrite a v s = some t) ∨ (∃ a v, hostWrite16 a v s = some t) ∨
      (∃ p, hostPreset p s = some t)) → Inv t

/-- A run from a state with the invariant ends, if it ends, in a state with it. -/
def Obligations.RunKeepsInvariant : Prop :=
  ∀ (fuel : Nat) (s t : State), Inv s → run fuel s = some t → Inv t

/-- Which opcode can change which register (the writes of the access matrix, 10_state.md section 3;
the RET row rests on the spec's own decision D4, log 7). -/
def Obligations.RegisterWriters : Prop :=
  ∀ s t : State, s.running → step s = .next t →
    (t.acc ≠ s.acc → s.mem.get s.pc.toNat ∈
      ([0x01, 0x03, 0x04, 0x07, 0x08, 0x09, 0x0A, 0x0B, 0x13, 0x15, 0x16] : List Byte)) ∧
    (t.regA ≠ s.regA → s.mem.get s.pc.toNat = 0x20) ∧
    (t.regB ≠ s.regB → s.mem.get s.pc.toNat = 0x14) ∧
    (t.sp ≠ s.sp → s.mem.get s.pc.toNat ∈ ([0x18, 0x19, 0x1C, 0x1F, 0x20] : List Byte)) ∧
    (t.interruptsEnabled ≠ s.interruptsEnabled →
      s.mem.get s.pc.toNat ∈ ([0x1D, 0x1E] : List Byte)) ∧
    (t.halted = true → t.err = 0 → s.mem.get s.pc.toNat = 0xFF)

/-- The bytes a step can change, whatever it executes: the operand address of STORE, the byte below
`sp` of PUSH, the two below it of CALL and INT, the two at `sp + 2` of RET; and never the size of
memory (20_memory.md section 2, 00_scope.md section 3; the addresses of RET and INT are the spec's
own decisions D4 and D5, log 7 and 8). -/
def Obligations.StepWriteFootprint : Prop :=
  ∀ s t : State, step s = .next t →
    t.mem.size = s.mem.size ∧
    ∀ a, t.mem.get a ≠ s.mem.get a →
      (s.fetches 0x02 ∧
        a = (s.mem.get (s.pc + 1).toNat).toNat + 256 * (s.mem.get (s.pc + 2).toNat).toNat) ∨
      (s.fetches 0x1F ∧ 1 ≤ s.sp.toNat ∧ a = s.sp.toNat - 1) ∨
      ((s.fetches 0x18 ∨ s.fetches 0x1C) ∧ 2 ≤ s.sp.toNat ∧
        (a = s.sp.toNat - 2 ∨ a = s.sp.toNat - 1)) ∨
      (s.fetches 0x19 ∧
        (a = (s.sp.toNat + 2) % 65536 ∨ a = (s.sp.toNat + 2) % 65536 + 1))

/-- Nothing reads `interrupts_enabled`: two states that differ in it alone step to states that
differ in it alone (10_state.md section 4; the spec's own decision D7, log 8). -/
def Obligations.InterruptFlagIsNeverRead : Prop :=
  ∀ (s t : State) (b : Bool), step s = .next t →
    ∃ t', step { s with interruptsEnabled := b } = .next t' ∧
      { t' with interruptsEnabled := t.interruptsEnabled } = t ∧
      (t'.interruptsEnabled = b ∨ t'.interruptsEnabled = t.interruptsEnabled)

/-- Nothing reads the error status: two states that differ in it alone step to states that differ
in it alone (10_state.md section 4; the registers are the spec's own decision D12, log 5). -/
def Obligations.ErrorStatusIsNeverRead : Prop :=
  ∀ (s t : State) (e : BitVec 3) (op : Byte) (p : Word), step s = .next t →
    ∃ t', step { s with err := e, errOpcode := op, errPc := p } = .next t' ∧
      { t' with err := t.err, errOpcode := t.errOpcode, errPc := t.errPc } = t

/-- A store over the next opcode byte is what the next step executes (20_memory.md section 4, an
inference of the spec): here STORE writes 0xFF just after itself and the machine halts. -/
def Obligations.StoreIntoNextOpcode : Prop :=
  ∀ s : State, s.fetches 0x02 → s.acc = 0xFF →
    s.inMem (s.pc + 1).toNat → s.inMem (s.pc + 2).toNat → s.inMem (s.pc + 3).toNat →
    (s.mem.get (s.pc + 1).toNat).toNat + 256 * (s.mem.get (s.pc + 2).toNat).toNat =
      (s.pc + 3).toNat →
    ∃ t u, step s = .next t ∧ step t = .next u ∧
      StoresByte { s with pc := s.pc + 4, halted := true } u (s.pc + 3).toNat 0xFF
end

