-- ==== Sys2Proof/Laws/Memory.lean ====
section
/-! SUPPORT. The laws of the Memory component: read after write, what a write leaves alone, and
that every write keeps the canonical form. -/

namespace Sys2Proof.Machine

/-! ### Lists of cells -/

@[simp] theorem lookupCell_removeCell_self (a : Nat) (cs : List Host.Cell) :
    lookupCell a (removeCell a cs) = Memory.unlisted := by
  induction cs with
  | nil => rfl
  | cons c cs ih =>
    obtain ⟨b, v⟩ := c
    by_cases h : a = b <;> simp [removeCell, lookupCell, h] at ih ⊢ <;> exact ih

theorem lookupCell_removeCell_other {a b : Nat} (h : b ≠ a) (cs : List Host.Cell) :
    lookupCell b (removeCell a cs) = lookupCell b cs := by
  induction cs with
  | nil => rfl
  | cons c cs ih =>
    obtain ⟨d, v⟩ := c
    by_cases hd : a = d
    · subst hd; simp [removeCell, lookupCell, h, ih]
    · simp [removeCell, lookupCell, hd, ih]

theorem lookupCell_insertCell_self (a : Nat) (v : Byte) (cs : List Host.Cell) :
    lookupCell a (insertCell a v (removeCell a cs)) = v := by
  induction cs with
  | nil => simp [removeCell, insertCell, lookupCell]
  | cons c cs ih =>
    obtain ⟨d, w⟩ := c
    by_cases hd : a = d
    · simpa [removeCell, hd] using hd ▸ ih
    · by_cases hl : a < d <;> simp [removeCell, insertCell, lookupCell, hd, hl, ih]

theorem lookupCell_insertCell_other {a b : Nat} (h : b ≠ a) (v : Byte) (cs : List Host.Cell) :
    lookupCell b (insertCell a v cs) = lookupCell b cs := by
  induction cs with
  | nil => simp [insertCell, lookupCell, h]
  | cons c cs ih =>
    obtain ⟨d, w⟩ := c
    by_cases hl : a < d <;> simp [insertCell, lookupCell, hl, h, ih]

theorem mem_of_mem_removeCell {a : Nat} {c : Host.Cell} {cs : List Host.Cell}
    (h : c ∈ removeCell a cs) : c ∈ cs ∧ c.1 ≠ a := by
  induction cs with
  | nil => simp [removeCell] at h
  | cons d cs ih =>
    obtain ⟨b, w⟩ := d
    by_cases hb : a = b
    · simp only [removeCell, hb, if_true] at h
      exact ⟨List.mem_cons_of_mem _ (ih (hb ▸ h)).1, (ih (hb ▸ h)).2⟩
    · simp only [removeCell, hb, if_false, List.mem_cons] at h
      rcases h with rfl | h
      · exact ⟨by simp, fun e => hb e.symm⟩
      · exact ⟨List.mem_cons_of_mem _ (ih h).1, (ih h).2⟩

theorem mem_of_mem_insertCell {a : Nat} {v : Byte} {c : Host.Cell} {cs : List Host.Cell}
    (h : c ∈ insertCell a v cs) : c = (a, v) ∨ c ∈ cs := by
  induction cs with
  | nil => simpa [insertCell] using h
  | cons d cs ih =>
    obtain ⟨b, w⟩ := d
    by_cases hl : a < b
    · simpa [insertCell, hl] using h
    · simp only [insertCell, hl, if_false, List.mem_cons] at h ⊢
      rcases h with rfl | h
      · simp
      · rcases ih h with h | h <;> simp [h]

/-- The addresses of a list of cells strictly rise. -/
abbrev Rising (cs : List Host.Cell) : Prop := cs.Pairwise fun c d => c.1 < d.1

theorem rising_removeCell (a : Nat) {cs : List Host.Cell} (h : Rising cs) :
    Rising (removeCell a cs) := by
  induction cs with
  | nil => exact h
  | cons c cs ih =>
    obtain ⟨b, w⟩ := c
    obtain ⟨hb, hr⟩ := List.pairwise_cons.mp h
    by_cases e : a = b
    · simpa [removeCell, e] using e ▸ ih hr
    · simp only [removeCell, e, if_false]
      exact List.pairwise_cons.mpr ⟨fun d hd => hb d (mem_of_mem_removeCell hd).1, ih hr⟩

theorem rising_insertCell {a : Nat} (v : Byte) {cs : List Host.Cell} (h : Rising cs)
    (ha : ∀ c ∈ cs, c.1 ≠ a) : Rising (insertCell a v cs) := by
  induction cs with
  | nil => simp [insertCell]
  | cons c cs ih =>
    obtain ⟨b, w⟩ := c
    obtain ⟨hb, hr⟩ := List.pairwise_cons.mp h
    by_cases hl : a < b
    · simp only [insertCell, hl, if_true]
      refine List.pairwise_cons.mpr ⟨fun d hd => ?_, h⟩
      rcases List.mem_cons.mp hd with rfl | hd
      · exact hl
      · exact Nat.lt_trans hl (hb d hd)
    · simp only [insertCell, hl, if_false]
      have hne : b ≠ a := ha (b, w) (by simp)
      refine List.pairwise_cons.mpr ⟨fun d hd => ?_, ih hr fun d hd => ha d (by simp [hd])⟩
      rcases mem_of_mem_insertCell hd with rfl | hd
      · show b < a
        omega
      · exact hb d hd

/-! ### The array -/

@[simp] theorem Memory.set_size (m : Memory) (a : Nat) (v : Byte) : (m.set a v).size = m.size := (rfl)

/-- A read after a write to the same address (20_memory.md R53). -/
@[simp] theorem Memory.get_set_self (m : Memory) (a : Nat) (v : Byte) : (m.set a v).get a = v := by
  by_cases h : v = Memory.unlisted
  · simp [Memory.get, Memory.set, h]
  · simp [Memory.get, Memory.set, h, lookupCell_insertCell_self]

/-- A write leaves every other byte alone (20_memory.md R53, R60). -/
@[simp] theorem Memory.get_set_other (m : Memory) {a b : Nat} (v : Byte) (h : b ≠ a) :
    (m.set a v).get b = m.get b := by
  by_cases hv : v = Memory.unlisted
  · simp [Memory.get, Memory.set, hv, lookupCell_removeCell_other h]
  · simp [Memory.get, Memory.set, hv, lookupCell_insertCell_other h, lookupCell_removeCell_other h]

theorem Memory.get_set (m : Memory) (a b : Nat) (v : Byte) :
    (m.set a v).get b = if b = a then v else m.get b := by
  by_cases h : b = a
  · subst h; simp
  · simp [h]

/-- A write inside the array keeps the canonical form. -/
theorem Memory.set_wf {m : Memory} {a : Nat} (v : Byte) (h : m.wf) (ha : a < m.size.val) :
    (m.set a v).wf := by
  obtain ⟨hr, hc⟩ := h
  by_cases hv : v = Memory.unlisted
  · refine ⟨?_, fun c hm => ?_⟩
    · simpa [Memory.set, hv] using rising_removeCell a hr
    · simp only [Memory.set, hv, if_true] at hm
      exact hc c (mem_of_mem_removeCell hm).1
  · refine ⟨?_, fun c hm => ?_⟩
    · simpa [Memory.set, hv] using
        rising_insertCell v (rising_removeCell a hr) fun c hm => (mem_of_mem_removeCell hm).2
    · simp only [Memory.set, hv, if_false] at hm
      rcases mem_of_mem_insertCell hm with rfl | hm
      · exact ⟨ha, hv⟩
      · exact hc c (mem_of_mem_removeCell hm).1

/-! ### The contract: each operation, inside the bounds and outside them -/

theorem Memory.admits_iff (m : Memory) (a n : Nat) :
    m.admits a n = true ↔ a + n - 1 < m.size.val := by simp [Memory.admits]

@[simp] theorem Memory.read_inside {m : Memory} {a : Nat} (h : a < m.size.val) :
    m.read a = some (m.get a) := by simp [Memory.read, Memory.admits, h]

@[simp] theorem Memory.read_outside {m : Memory} {a : Nat} (h : ¬ a < m.size.val) :
    m.read a = none := by simp [Memory.read, Memory.admits, h]

@[simp] theorem Memory.write_inside {m : Memory} {a : Nat} (v : Byte) (h : a < m.size.val) :
    m.write a v = some (m.set a v) := by simp [Memory.write, Memory.admits, h]

@[simp] theorem Memory.write_outside {m : Memory} {a : Nat} (v : Byte) (h : ¬ a < m.size.val) :
    m.write a v = none := by simp [Memory.write, Memory.admits, h]

@[simp] theorem Memory.read16_inside {m : Memory} {a : Nat} (h : a + 1 < m.size.val) :
    m.read16 a = some (wordOfBytes (m.get a) (m.get (a + 1))) := by
  simp [Memory.read16, Memory.admits, h]

@[simp] theorem Memory.read16_outside {m : Memory} {a : Nat} (h : ¬ a + 1 < m.size.val) :
    m.read16 a = none := by simp [Memory.read16, Memory.admits, h]

@[simp] theorem Memory.write16_inside {m : Memory} {a : Nat} (v : Word) (h : a + 1 < m.size.val) :
    m.write16 a v = some ((m.set a (lowByte v)).set (a + 1) (highByte v)) := by
  simp [Memory.write16, Memory.admits, h]

@[simp] theorem Memory.write16_outside {m : Memory} {a : Nat} (v : Word)
    (h : ¬ a + 1 < m.size.val) : m.write16 a v = none := by
  simp [Memory.write16, Memory.admits, h]

/-- A byte write that succeeds keeps the canonical form and the size. -/
theorem Memory.write_keeps {m m' : Memory} {a : Nat} {v : Byte} (h : m.write a v = some m') :
    m'.size = m.size ∧ (m.wf → m'.wf) := by
  by_cases ha : a < m.size.val
  · rw [Memory.write_inside v ha] at h
    cases h
    exact ⟨rfl, fun hw => Memory.set_wf v hw ha⟩
  · simp [ha] at h

/-- A word write that succeeds keeps the canonical form and the size. -/
theorem Memory.write16_keeps {m m' : Memory} {a : Nat} {v : Word} (h : m.write16 a v = some m') :
    m'.size = m.size ∧ (m.wf → m'.wf) := by
  by_cases ha : a + 1 < m.size.val
  · rw [Memory.write16_inside v ha] at h
    cases h
    exact ⟨rfl, fun hw => Memory.set_wf _ (Memory.set_wf _ hw (by omega)) ha⟩
  · simp [ha] at h

end Sys2Proof.Machine
end

