-- ==== Sys2Proof/Laws/State.lean ====
section
/-! SUPPORT. What each register write leaves in each field, and what the error entry does. -/

namespace Sys2Proof.Machine

variable (s : State)

@[simp] theorem State.setPc_pc (v : Word) : (s.setPc v).pc = v := (rfl)
@[simp] theorem State.setPc_acc (v : Word) : (s.setPc v).acc = s.acc := (rfl)
@[simp] theorem State.setPc_regA (v : Word) : (s.setPc v).regA = s.regA := (rfl)
@[simp] theorem State.setPc_regB (v : Word) : (s.setPc v).regB = s.regB := (rfl)
@[simp] theorem State.setPc_sp (v : Word) : (s.setPc v).sp = s.sp := (rfl)
@[simp] theorem State.setPc_halted (v : Word) : (s.setPc v).halted = s.halted := (rfl)
@[simp] theorem State.setPc_interruptsEnabled (v : Word) : (s.setPc v).interruptsEnabled = s.interruptsEnabled := (rfl)
@[simp] theorem State.setPc_err (v : Word) : (s.setPc v).err = s.err := (rfl)
@[simp] theorem State.setPc_errOpcode (v : Word) : (s.setPc v).errOpcode = s.errOpcode := (rfl)
@[simp] theorem State.setPc_errPc (v : Word) : (s.setPc v).errPc = s.errPc := (rfl)
@[simp] theorem State.setPc_mem (v : Word) : (s.setPc v).mem = s.mem := (rfl)

@[simp] theorem State.setAcc_pc (v : Byte) : (s.setAcc v).pc = s.pc := (rfl)
@[simp] theorem State.setAcc_acc (v : Byte) : (s.setAcc v).acc = v := (rfl)
@[simp] theorem State.setAcc_regA (v : Byte) : (s.setAcc v).regA = s.regA := (rfl)
@[simp] theorem State.setAcc_regB (v : Byte) : (s.setAcc v).regB = s.regB := (rfl)
@[simp] theorem State.setAcc_sp (v : Byte) : (s.setAcc v).sp = s.sp := (rfl)
@[simp] theorem State.setAcc_halted (v : Byte) : (s.setAcc v).halted = s.halted := (rfl)
@[simp] theorem State.setAcc_interruptsEnabled (v : Byte) : (s.setAcc v).interruptsEnabled = s.interruptsEnabled := (rfl)
@[simp] theorem State.setAcc_err (v : Byte) : (s.setAcc v).err = s.err := (rfl)
@[simp] theorem State.setAcc_errOpcode (v : Byte) : (s.setAcc v).errOpcode = s.errOpcode := (rfl)
@[simp] theorem State.setAcc_errPc (v : Byte) : (s.setAcc v).errPc = s.errPc := (rfl)
@[simp] theorem State.setAcc_mem (v : Byte) : (s.setAcc v).mem = s.mem := (rfl)

@[simp] theorem State.setRegA_pc (v : Byte) : (s.setRegA v).pc = s.pc := (rfl)
@[simp] theorem State.setRegA_acc (v : Byte) : (s.setRegA v).acc = s.acc := (rfl)
@[simp] theorem State.setRegA_regA (v : Byte) : (s.setRegA v).regA = v := (rfl)
@[simp] theorem State.setRegA_regB (v : Byte) : (s.setRegA v).regB = s.regB := (rfl)
@[simp] theorem State.setRegA_sp (v : Byte) : (s.setRegA v).sp = s.sp := (rfl)
@[simp] theorem State.setRegA_halted (v : Byte) : (s.setRegA v).halted = s.halted := (rfl)
@[simp] theorem State.setRegA_interruptsEnabled (v : Byte) : (s.setRegA v).interruptsEnabled = s.interruptsEnabled := (rfl)
@[simp] theorem State.setRegA_err (v : Byte) : (s.setRegA v).err = s.err := (rfl)
@[simp] theorem State.setRegA_errOpcode (v : Byte) : (s.setRegA v).errOpcode = s.errOpcode := (rfl)
@[simp] theorem State.setRegA_errPc (v : Byte) : (s.setRegA v).errPc = s.errPc := (rfl)
@[simp] theorem State.setRegA_mem (v : Byte) : (s.setRegA v).mem = s.mem := (rfl)

@[simp] theorem State.setRegB_pc (v : Byte) : (s.setRegB v).pc = s.pc := (rfl)
@[simp] theorem State.setRegB_acc (v : Byte) : (s.setRegB v).acc = s.acc := (rfl)
@[simp] theorem State.setRegB_regA (v : Byte) : (s.setRegB v).regA = s.regA := (rfl)
@[simp] theorem State.setRegB_regB (v : Byte) : (s.setRegB v).regB = v := (rfl)
@[simp] theorem State.setRegB_sp (v : Byte) : (s.setRegB v).sp = s.sp := (rfl)
@[simp] theorem State.setRegB_halted (v : Byte) : (s.setRegB v).halted = s.halted := (rfl)
@[simp] theorem State.setRegB_interruptsEnabled (v : Byte) : (s.setRegB v).interruptsEnabled = s.interruptsEnabled := (rfl)
@[simp] theorem State.setRegB_err (v : Byte) : (s.setRegB v).err = s.err := (rfl)
@[simp] theorem State.setRegB_errOpcode (v : Byte) : (s.setRegB v).errOpcode = s.errOpcode := (rfl)
@[simp] theorem State.setRegB_errPc (v : Byte) : (s.setRegB v).errPc = s.errPc := (rfl)
@[simp] theorem State.setRegB_mem (v : Byte) : (s.setRegB v).mem = s.mem := (rfl)

@[simp] theorem State.setSp_pc (v : Word) : (s.setSp v).pc = s.pc := (rfl)
@[simp] theorem State.setSp_acc (v : Word) : (s.setSp v).acc = s.acc := (rfl)
@[simp] theorem State.setSp_regA (v : Word) : (s.setSp v).regA = s.regA := (rfl)
@[simp] theorem State.setSp_regB (v : Word) : (s.setSp v).regB = s.regB := (rfl)
@[simp] theorem State.setSp_sp (v : Word) : (s.setSp v).sp = v := (rfl)
@[simp] theorem State.setSp_halted (v : Word) : (s.setSp v).halted = s.halted := (rfl)
@[simp] theorem State.setSp_interruptsEnabled (v : Word) : (s.setSp v).interruptsEnabled = s.interruptsEnabled := (rfl)
@[simp] theorem State.setSp_err (v : Word) : (s.setSp v).err = s.err := (rfl)
@[simp] theorem State.setSp_errOpcode (v : Word) : (s.setSp v).errOpcode = s.errOpcode := (rfl)
@[simp] theorem State.setSp_errPc (v : Word) : (s.setSp v).errPc = s.errPc := (rfl)
@[simp] theorem State.setSp_mem (v : Word) : (s.setSp v).mem = s.mem := (rfl)

@[simp] theorem State.setHalted_pc (v : Bool) : (s.setHalted v).pc = s.pc := (rfl)
@[simp] theorem State.setHalted_acc (v : Bool) : (s.setHalted v).acc = s.acc := (rfl)
@[simp] theorem State.setHalted_regA (v : Bool) : (s.setHalted v).regA = s.regA := (rfl)
@[simp] theorem State.setHalted_regB (v : Bool) : (s.setHalted v).regB = s.regB := (rfl)
@[simp] theorem State.setHalted_sp (v : Bool) : (s.setHalted v).sp = s.sp := (rfl)
@[simp] theorem State.setHalted_halted (v : Bool) : (s.setHalted v).halted = v := (rfl)
@[simp] theorem State.setHalted_interruptsEnabled (v : Bool) : (s.setHalted v).interruptsEnabled = s.interruptsEnabled := (rfl)
@[simp] theorem State.setHalted_err (v : Bool) : (s.setHalted v).err = s.err := (rfl)
@[simp] theorem State.setHalted_errOpcode (v : Bool) : (s.setHalted v).errOpcode = s.errOpcode := (rfl)
@[simp] theorem State.setHalted_errPc (v : Bool) : (s.setHalted v).errPc = s.errPc := (rfl)
@[simp] theorem State.setHalted_mem (v : Bool) : (s.setHalted v).mem = s.mem := (rfl)

@[simp] theorem State.setInterruptsEnabled_pc (v : Bool) : (s.setInterruptsEnabled v).pc = s.pc := (rfl)
@[simp] theorem State.setInterruptsEnabled_acc (v : Bool) : (s.setInterruptsEnabled v).acc = s.acc := (rfl)
@[simp] theorem State.setInterruptsEnabled_regA (v : Bool) : (s.setInterruptsEnabled v).regA = s.regA := (rfl)
@[simp] theorem State.setInterruptsEnabled_regB (v : Bool) : (s.setInterruptsEnabled v).regB = s.regB := (rfl)
@[simp] theorem State.setInterruptsEnabled_sp (v : Bool) : (s.setInterruptsEnabled v).sp = s.sp := (rfl)
@[simp] theorem State.setInterruptsEnabled_halted (v : Bool) : (s.setInterruptsEnabled v).halted = s.halted := (rfl)
@[simp] theorem State.setInterruptsEnabled_interruptsEnabled (v : Bool) : (s.setInterruptsEnabled v).interruptsEnabled = v := (rfl)
@[simp] theorem State.setInterruptsEnabled_err (v : Bool) : (s.setInterruptsEnabled v).err = s.err := (rfl)
@[simp] theorem State.setInterruptsEnabled_errOpcode (v : Bool) : (s.setInterruptsEnabled v).errOpcode = s.errOpcode := (rfl)
@[simp] theorem State.setInterruptsEnabled_errPc (v : Bool) : (s.setInterruptsEnabled v).errPc = s.errPc := (rfl)
@[simp] theorem State.setInterruptsEnabled_mem (v : Bool) : (s.setInterruptsEnabled v).mem = s.mem := (rfl)

@[simp] theorem State.setErr_pc (v : BitVec 3) : (s.setErr v).pc = s.pc := (rfl)
@[simp] theorem State.setErr_acc (v : BitVec 3) : (s.setErr v).acc = s.acc := (rfl)
@[simp] theorem State.setErr_regA (v : BitVec 3) : (s.setErr v).regA = s.regA := (rfl)
@[simp] theorem State.setErr_regB (v : BitVec 3) : (s.setErr v).regB = s.regB := (rfl)
@[simp] theorem State.setErr_sp (v : BitVec 3) : (s.setErr v).sp = s.sp := (rfl)
@[simp] theorem State.setErr_halted (v : BitVec 3) : (s.setErr v).halted = s.halted := (rfl)
@[simp] theorem State.setErr_interruptsEnabled (v : BitVec 3) : (s.setErr v).interruptsEnabled = s.interruptsEnabled := (rfl)
@[simp] theorem State.setErr_err (v : BitVec 3) : (s.setErr v).err = v := (rfl)
@[simp] theorem State.setErr_errOpcode (v : BitVec 3) : (s.setErr v).errOpcode = s.errOpcode := (rfl)
@[simp] theorem State.setErr_errPc (v : BitVec 3) : (s.setErr v).errPc = s.errPc := (rfl)
@[simp] theorem State.setErr_mem (v : BitVec 3) : (s.setErr v).mem = s.mem := (rfl)

@[simp] theorem State.setMem_pc (v : Memory) : (s.setMem v).pc = s.pc := (rfl)
@[simp] theorem State.setMem_acc (v : Memory) : (s.setMem v).acc = s.acc := (rfl)
@[simp] theorem State.setMem_regA (v : Memory) : (s.setMem v).regA = s.regA := (rfl)
@[simp] theorem State.setMem_regB (v : Memory) : (s.setMem v).regB = s.regB := (rfl)
@[simp] theorem State.setMem_sp (v : Memory) : (s.setMem v).sp = s.sp := (rfl)
@[simp] theorem State.setMem_halted (v : Memory) : (s.setMem v).halted = s.halted := (rfl)
@[simp] theorem State.setMem_interruptsEnabled (v : Memory) : (s.setMem v).interruptsEnabled = s.interruptsEnabled := (rfl)
@[simp] theorem State.setMem_err (v : Memory) : (s.setMem v).err = s.err := (rfl)
@[simp] theorem State.setMem_errOpcode (v : Memory) : (s.setMem v).errOpcode = s.errOpcode := (rfl)
@[simp] theorem State.setMem_errPc (v : Memory) : (s.setMem v).errPc = s.errPc := (rfl)
@[simp] theorem State.setMem_mem (v : Memory) : (s.setMem v).mem = v := (rfl)

@[simp] theorem State.setPayload_pc (op : Byte) (p : Word) : (s.setPayload op p).pc = s.pc := (rfl)
@[simp] theorem State.setPayload_acc (op : Byte) (p : Word) : (s.setPayload op p).acc = s.acc := (rfl)
@[simp] theorem State.setPayload_regA (op : Byte) (p : Word) : (s.setPayload op p).regA = s.regA := (rfl)
@[simp] theorem State.setPayload_regB (op : Byte) (p : Word) : (s.setPayload op p).regB = s.regB := (rfl)
@[simp] theorem State.setPayload_sp (op : Byte) (p : Word) : (s.setPayload op p).sp = s.sp := (rfl)
@[simp] theorem State.setPayload_halted (op : Byte) (p : Word) : (s.setPayload op p).halted = s.halted := (rfl)
@[simp] theorem State.setPayload_interruptsEnabled (op : Byte) (p : Word) : (s.setPayload op p).interruptsEnabled = s.interruptsEnabled := (rfl)
@[simp] theorem State.setPayload_err (op : Byte) (p : Word) : (s.setPayload op p).err = s.err := (rfl)
@[simp] theorem State.setPayload_errOpcode (op : Byte) (p : Word) : (s.setPayload op p).errOpcode = op := (rfl)
@[simp] theorem State.setPayload_errPc (op : Byte) (p : Word) : (s.setPayload op p).errPc = p := (rfl)
@[simp] theorem State.setPayload_mem (op : Byte) (p : Word) : (s.setPayload op p).mem = s.mem := (rfl)

@[simp] theorem errorEntry_pc (e : Fault) : (errorEntry e s).pc = s.pc := by cases e <;> rfl
@[simp] theorem errorEntry_acc (e : Fault) : (errorEntry e s).acc = s.acc := by cases e <;> rfl
@[simp] theorem errorEntry_regA (e : Fault) : (errorEntry e s).regA = s.regA := by cases e <;> rfl
@[simp] theorem errorEntry_regB (e : Fault) : (errorEntry e s).regB = s.regB := by cases e <;> rfl
@[simp] theorem errorEntry_sp (e : Fault) : (errorEntry e s).sp = s.sp := by cases e <;> rfl
@[simp] theorem errorEntry_halted (e : Fault) : (errorEntry e s).halted = true := by cases e <;> rfl
@[simp] theorem errorEntry_interruptsEnabled (e : Fault) : (errorEntry e s).interruptsEnabled = s.interruptsEnabled := by cases e <;> rfl
@[simp] theorem errorEntry_err (e : Fault) : (errorEntry e s).err = e.code := by cases e <;> rfl
@[simp] theorem errorEntry_mem (e : Fault) : (errorEntry e s).mem = s.mem := by cases e <;> rfl

/-- The payload registers are written by UnknownInstruction alone (10_state.md R30). -/
theorem errorEntry_payload (e : Fault) :
    ((errorEntry e s).errOpcode, (errorEntry e s).errPc) =
      match e with
      | .unknownInstruction op p => (op, p)
      | _ => (s.errOpcode, s.errPc) := by cases e <;> rfl

end Sys2Proof.Machine
end

