-- ==== Sys2Proof/Laws/Ops.lean ====
section
/-! SUPPORT. One lemma per shared operation that says once everything it can do; callers cite it
and do not unfold the operation. -/

namespace Sys2Proof.Machine

/-! ### Results -/

@[simp] theorem Result.bind_ok {α β : Type} (v : α) (s : State) (f : α → State → Result β) :
    (Result.ok v s).bind f = f v s := rfl

@[simp] theorem Result.bind_raise {α β : Type} (e : Fault) (s : State) (f : α → State → Result β) :
    (Result.raise e s : Result α).bind f = .raise e s := rfl

@[simp] theorem finish_ok (s : State) : finish (.ok () s) = .next s := rfl

@[simp] theorem finish_raise (e : Fault) (s : State) :
    finish (.raise e s) = .next (errorEntry e s) := rfl

/-- An instruction always ends in a next state: its own, or the entry of its error. -/
theorem finish_next (r : Result Unit) : ∃ t, finish r = .next t := by
  cases r <;> exact ⟨_, rfl⟩

/-! ### Memory accesses -/

theorem memRead_eq (a : Word) (s : State) :
    memRead a s =
      if s.inMem a.toNat then .ok (s.mem.get a.toNat) s else .raise .outOfBounds s := by
  by_cases h : s.inMem a.toNat <;> simp [memRead, h]

theorem memWrite_eq (a : Word) (v : Byte) (s : State) :
    memWrite a v s =
      if s.inMem a.toNat then .ok () (s.setMem (s.mem.set a.toNat v))
      else .raise .outOfBounds s := by
  by_cases h : s.inMem a.toNat <;> simp [memWrite, h]

theorem memWrite16_eq (a : Word) (v : Word) (s : State) :
    memWrite16 a v s =
      if s.inMem (a.toNat + 1) then
        .ok () (s.setMem ((s.mem.set a.toNat (lowByte v)).set (a.toNat + 1) (highByte v)))
      else .raise .outOfBounds s := by
  by_cases h : s.inMem (a.toNat + 1) <;> simp [memWrite16, h]

/-! ### Fetches -/

theorem fetch8_eq (s : State) :
    fetch8 s =
      if s.inMem s.pc.toNat then .ok (s.mem.get s.pc.toNat) (s.setPc (s.pc + 1))
      else .raise .outOfBounds s := by
  rw [fetch8, memRead_eq]
  split <;> rfl

theorem fetch16_eq (s : State) :
    fetch16 s =
      if s.inMem s.pc.toNat then
        if s.inMem (s.pc + 1).toNat then
          .ok (wordOfBytes (s.mem.get s.pc.toNat) (s.mem.get (s.pc + 1).toNat))
            (s.setPc (s.pc + 2))
        else .raise .outOfBounds (s.setPc (s.pc + 1))
      else .raise .outOfBounds s := by
  have e : s.pc + 1 + 1 = s.pc + 2 := by rw [BitVec.add_assoc]; rfl
  rw [fetch16, fetch8_eq]
  split
  · simp only [Result.bind_ok, fetch8_eq, State.inMem, State.setPc_mem, State.setPc_pc, e]
    by_cases h : (s.pc + 1).toNat < s.mem.size.val
    · simp only [h, if_true]; rfl
    · simp only [h, if_false]; rfl
  · rfl

/-! ### The stack pointer controller -/

theorem pushByte_eq (v : Byte) (s : State) :
    pushByte v s =
      if s.sp = 0 then .raise .stackUnderflow s
      else if s.inMem (s.sp - 1).toNat then
        .ok () ((s.setSp (s.sp - 1)).setMem (s.mem.set (s.sp - 1).toNat v))
      else .raise .outOfBounds (s.setSp (s.sp - 1)) := by
  rw [pushByte, spDecrement1]
  split
  · rfl
  · simp [memWrite_eq]

theorem popByte_eq (s : State) :
    popByte s =
      if s.inMem s.sp.toNat then .ok (s.mem.get s.sp.toNat) (s.setSp (s.sp + 1))
      else .raise .outOfBounds s := by
  rw [popByte, memRead_eq]
  split <;> rfl

theorem pushPcAndJump_eq (target : Word) (s : State) :
    pushPcAndJump target s =
      if s.sp.toNat < 2 then .raise .stackOverflow s
      else if s.inMem ((s.sp - 2).toNat + 1) then
        .ok ()
          (((s.setSp (s.sp - 2)).setMem
            ((s.mem.set (s.sp - 2).toNat (lowByte s.pc)).set ((s.sp - 2).toNat + 1)
              (highByte s.pc))).setPc target)
      else .raise .outOfBounds (s.setSp (s.sp - 2)) := by
  rw [pushPcAndJump, spDecrement2]
  split
  · rfl
  · simp only [Result.bind_ok, memWrite16_eq, State.inMem, State.setSp_mem, State.setSp_sp,
      State.setSp_pc]
    by_cases h : (s.sp - 2).toNat + 1 < s.mem.size.val
    · simp only [h, if_true]; rfl
    · simp only [h, if_false]; rfl

theorem accFromMemory_eq (f : Byte → Byte → Byte) (addr : Word) (s : State) :
    accFromMemory f addr s =
      if s.inMem addr.toNat then .ok () (s.setAcc (f s.acc (s.mem.get addr.toNat)))
      else .raise .outOfBounds s := by
  rw [accFromMemory, dataOperand, effectiveAddress, memRead_eq]
  split <;> rfl

end Sys2Proof.Machine
end

