-- ==== Sys2Proof/Laws/Step.lean ====
section
/-! SUPPORT. What a step does, said once: the fetch of an instruction, and the two run states. -/

namespace Sys2Proof.Machine

theorem fetchInstr_eq (s : State) :
    fetchInstr s =
      if s.inMem s.pc.toNat then
        match descriptor (s.mem.get s.pc.toNat) with
        | none => .raise (.unknownInstruction (s.mem.get s.pc.toNat) s.pc) (s.setPc (s.pc + 1))
        | some d => fetchOperands d (s.setPc (s.pc + 1))
      else .raise .outOfBounds s := by
  rw [fetchInstr, fetch8_eq]
  split <;> rfl

theorem step_halted {s : State} (h : s.halted = true) : step s = .next s := by simp [step, h]

/-- What a running step can do: enter the error of its fetch, or execute the fetched instruction. -/
theorem step_running {s : State} (h : s.running) :
    step s =
      match fetchInstr s with
      | .ok i s' => exec i s'
      | .raise e s' => .next (errorEntry e s') := by
  have h' : ¬ s.halted = true := by simp [show s.halted = false from h]
  exact (if_neg h' : (if s.halted = true then Host.Outcome.next s else _) = _)

end Sys2Proof.Machine
end

