-- ==== Sys2Proof/Laws/Exec.lean ====
section
/-! SUPPORT. Everything an instruction can do to a state, said once as a relation (`Effect`), and
everything a step can do (`StepEffect`); whole-machine statements follow by cases on them. -/

namespace Sys2Proof.Machine

/-- The instructions that write `acc` (10_state.md R22). -/
inductive WritesAcc : Instr → Prop where
  | load (a : Word) : WritesAcc (.load a)
  | add (a : Word) : WritesAcc (.add a)
  | sub (a : Word) : WritesAcc (.sub a)
  | and (a : Word) : WritesAcc (.and a)
  | or (a : Word) : WritesAcc (.or a)
  | xor (a : Word) : WritesAcc (.xor a)
  | lda (v : Byte) : WritesAcc (.lda v)
  | inc : WritesAcc .inc
  | dec : WritesAcc .dec
  | mul : WritesAcc .mul
  | div : WritesAcc .div

/-- The instructions that read or write one byte of data memory at their operand. -/
inductive UsesDataByte : Instr → Word → Prop where
  | load (a : Word) : UsesDataByte (.load a) a
  | store (a : Word) : UsesDataByte (.store a) a
  | add (a : Word) : UsesDataByte (.add a) a
  | sub (a : Word) : UsesDataByte (.sub a) a
  | and (a : Word) : UsesDataByte (.and a) a
  | or (a : Word) : UsesDataByte (.or a) a
  | xor (a : Word) : UsesDataByte (.xor a) a

/-- The jumps, with their target. -/
inductive IsJump : Instr → Word → Prop where
  | jmp (a : Word) : IsJump (.jmp a) a
  | jz (a : Word) : IsJump (.jz a) a
  | jnz (a : Word) : IsJump (.jnz a) a
  | jp (a : Word) : IsJump (.jp a) a
  | jn (a : Word) : IsJump (.jn a) a

/-- The two instructions that push `pc` and jump. -/
inductive PushesPc : Instr → Word → Prop where
  | call (a : Word) : PushesPc (.call a) a
  | int (a : Word) : PushesPc (.int a) a

/-- The memory after `pc` is written as a word at `a`. -/
def State.memWithPcAt (s : State) (a : Nat) : Memory :=
  (s.mem.set a (lowByte s.pc)).set (a + 1) (highByte s.pc)

/-- What an instruction, executed in `s`, can lead to. -/
inductive Effect (s : State) : Instr → State → Prop where
  | acc {i : Instr} (h : WritesAcc i) (v : Byte) : Effect s i (s.setAcc v)
  | dataOutside {i : Instr} {a : Word} (h : UsesDataByte i a) (out : ¬ s.inMem a.toNat) :
      Effect s i (errorEntry .outOfBounds s)
  | store {a : Word} (ins : s.inMem a.toNat) :
      Effect s (.store a) (s.setMem (s.mem.set a.toNat s.acc))
  | mov : Effect s .mov (s.setRegB s.regA)
  | cmp : Effect s .cmp s
  | taken {i : Instr} {a : Word} (h : IsJump i a) : Effect s i (s.setPc a)
  | notTaken {i : Instr} {a : Word} (h : IsJump i a) : Effect s i s
  | divByZero (h : s.regB = 0) : Effect s .div (errorEntry .divisionByZero s)
  | noRoom {i : Instr} {a : Word} (h : PushesPc i a) (few : s.sp.toNat < 2) :
      Effect s i (errorEntry .stackOverflow s)
  | pushPcOutside {i : Instr} {a : Word} (h : PushesPc i a) (room : 2 ≤ s.sp.toNat)
      (out : ¬ s.inMem ((s.sp - 2).toNat + 1)) :
      Effect s i (errorEntry .outOfBounds (s.setSp (s.sp - 2)))
  | pushPc {i : Instr} {a : Word} (h : PushesPc i a) (room : 2 ≤ s.sp.toNat)
      (ins : s.inMem ((s.sp - 2).toNat + 1)) :
      Effect s i
        (((s.setSp (s.sp - 2)).setMem (s.memWithPcAt (s.sp - 2).toNat)).setPc a)
  | ret (ins : s.inMem ((s.sp + 2).toNat + 1)) :
      Effect s .ret ((s.setSp (s.sp + 2)).setMem (s.memWithPcAt (s.sp + 2).toNat))
  | retOutside (out : ¬ s.inMem ((s.sp + 2).toNat + 1)) :
      Effect s .ret (errorEntry .outOfBounds (s.setSp (s.sp + 2)))
  | pushEmpty (h : s.sp = 0) : Effect s .push (errorEntry .stackUnderflow s)
  | push (h : s.sp ≠ 0) (ins : s.inMem (s.sp - 1).toNat) :
      Effect s .push ((s.setSp (s.sp - 1)).setMem (s.mem.set (s.sp - 1).toNat s.regA))
  | pushOutside (h : s.sp ≠ 0) (out : ¬ s.inMem (s.sp - 1).toNat) :
      Effect s .push (errorEntry .outOfBounds (s.setSp (s.sp - 1)))
  | pop (ins : s.inMem s.sp.toNat) :
      Effect s .pop ((s.setSp (s.sp + 1)).setRegA (s.mem.get s.sp.toNat))
  | popOutside (out : ¬ s.inMem s.sp.toNat) : Effect s .pop (errorEntry .outOfBounds s)
  | cli : Effect s .cli (s.setInterruptsEnabled false)
  | sei : Effect s .sei (s.setInterruptsEnabled true)
  | halt : Effect s .halt (s.setHalted true)

/-! ### One lemma per shape of meaning -/

theorem finish_accFromMemory {i : Instr} {a : Word} {s t : State} {f : Byte → Byte → Byte}
    (hw : WritesAcc i) (hu : UsesDataByte i a) (h : finish (accFromMemory f a s) = .next t) :
    Effect s i t := by
  rw [accFromMemory_eq] at h
  split at h <;> cases h
  · exact .acc hw _
  · exact .dataOutside hu ‹_›

theorem finish_pushPcAndJump {i : Instr} {a : Word} {s t : State} (hp : PushesPc i a)
    (h : finish (pushPcAndJump a s) = .next t) : Effect s i t := by
  rw [pushPcAndJump_eq] at h
  split at h
  · cases h; exact .noRoom hp ‹_›
  · have room : 2 ≤ s.sp.toNat := by omega
    split at h <;> cases h
    · exact .pushPc hp room ‹_›
    · exact .pushPcOutside hp room ‹_›

theorem execStore_effect {a : Word} {s t : State} (h : execStore a s = .next t) :
    Effect s (.store a) t := by
  rw [execStore, effectiveAddress, memWrite_eq] at h
  split at h <;> cases h
  · exact .store ‹_›
  · exact .dataOutside (.store a) ‹_›

theorem execDiv_effect {s t : State} (h : execDiv s = .next t) : Effect s .div t := by
  by_cases hb : s.regB = 0
  · simp only [execDiv, aluDiv, hb, if_true] at h
    cases h
    exact .divByZero hb
  · simp only [execDiv, aluDiv, hb, if_false] at h
    cases h
    exact .acc .div _

theorem execRet_effect {s t : State} (h : execRet s = .next t) : Effect s .ret t := by
  simp only [execRet, memWrite16_eq, spIncrement] at h
  split at h <;> cases h
  · exact .ret ‹_›
  · exact .retOutside ‹_›

theorem execPush_effect {s t : State} (h : execPush s = .next t) : Effect s .push t := by
  rw [execPush, pushByte_eq] at h
  split at h
  · cases h; exact .pushEmpty ‹_›
  · split at h <;> cases h
    · exact .push ‹_› ‹_›
    · exact .pushOutside ‹_› ‹_›

theorem execPop_effect {s t : State} (h : execPop s = .next t) : Effect s .pop t := by
  rw [execPop, popByte_eq] at h
  split at h <;> cases h
  · exact .pop ‹_›
  · exact .popOutside ‹_›

theorem execJz_effect {a : Word} {s t : State} (h : execJz a s = .next t) :
    Effect s (.jz a) t := by
  unfold execJz at h
  split at h <;> cases h
  · exact .taken (.jz a)
  · exact .notTaken (.jz a)

theorem execJnz_effect {a : Word} {s t : State} (h : execJnz a s = .next t) :
    Effect s (.jnz a) t := by
  unfold execJnz at h
  split at h <;> cases h
  · exact .notTaken (.jnz a)
  · exact .taken (.jnz a)

/-- Everything an instruction can do. -/
theorem exec_effect {i : Instr} {s t : State} (h : exec i s = .next t) : Effect s i t := by
  cases i with
  | load a => exact finish_accFromMemory (.load a) (.load a) h
  | store a => exact execStore_effect h
  | add a => exact finish_accFromMemory (.add a) (.add a) h
  | sub a => exact finish_accFromMemory (.sub a) (.sub a) h
  | inc => cases h; exact .acc .inc _
  | dec => cases h; exact .acc .dec _
  | and a => exact finish_accFromMemory (.and a) (.and a) h
  | or a => exact finish_accFromMemory (.or a) (.or a) h
  | xor a => exact finish_accFromMemory (.xor a) (.xor a) h
  | jmp a => cases h; exact .taken (.jmp a)
  | jz a => exact execJz_effect h
  | jnz a => exact execJnz_effect h
  | lda v => cases h; exact .acc (.lda v) _
  | mov => cases h; exact .mov
  | mul => cases h; exact .acc .mul _
  | div => exact execDiv_effect h
  | cmp => cases h; exact .cmp
  | call a => exact finish_pushPcAndJump (.call a) h
  | ret => exact execRet_effect h
  | jp a => cases h; exact .taken (.jp a)
  | jn a => cases h; exact .taken (.jn a)
  | int a => exact finish_pushPcAndJump (.int a) h
  | cli => cases h; exact .cli
  | sei => cases h; exact .sei
  | push => exact execPush_effect h
  | pop => exact execPop_effect h
  | halt => cases h; exact .halt

/-! ### A step -/

/-- What a fetch with descriptor `d` in `s` (with `pc` at the opcode) can lead to: an error with
`pc` at the operand byte outside memory, or an instruction of that descriptor with `pc` past it. -/
inductive FetchEffect (s : State) : Result Instr → Prop where
  | opcodeOutside (out : ¬ s.inMem s.pc.toNat) : FetchEffect s (.raise .outOfBounds s)
  | unknown (ins : s.inMem s.pc.toNat) (h : descriptor (s.mem.get s.pc.toNat) = none) :
      FetchEffect s
        (.raise (.unknownInstruction (s.mem.get s.pc.toNat) s.pc) (s.setPc (s.pc + 1)))
  | operandOutside (ins : s.inMem s.pc.toNat) (p : Word) :
      FetchEffect s (.raise .outOfBounds (s.setPc p))
  | n {i : Instr} (ins : s.inMem s.pc.toNat)
      (h : descriptor (s.mem.get s.pc.toNat) = some (.n i)) :
      FetchEffect s (.ok i (s.setPc (s.pc + 1)))
  | i {mk : Byte → Instr} (ins : s.inMem s.pc.toNat)
      (h : descriptor (s.mem.get s.pc.toNat) = some (.i mk)) :
      FetchEffect s (.ok (mk (s.mem.get (s.pc + 1).toNat)) (s.setPc (s.pc + 2)))
  | a {mk : Word → Instr} (ins : s.inMem s.pc.toNat)
      (h : descriptor (s.mem.get s.pc.toNat) = some (.a mk)) :
      FetchEffect s
        (.ok (mk (wordOfBytes (s.mem.get (s.pc + 1).toNat) (s.mem.get (s.pc + 2).toNat)))
          (s.setPc (s.pc + 3)))

theorem Word.add_one_add_one (p : Word) : p + 1 + 1 = p + 2 := by rw [BitVec.add_assoc]; rfl

theorem Word.add_one_add_two (p : Word) : p + 1 + 2 = p + 3 := by rw [BitVec.add_assoc]; rfl

/-- Everything the fetch of an instruction can do. -/
theorem fetchInstr_effect (s : State) : FetchEffect s (fetchInstr s) := by
  rw [fetchInstr_eq]
  split
  · rename_i ins
    split
    · exact .unknown ins ‹_›
    · rename_i d hd
      cases d with
      | n i => exact .n ins hd
      | i mk =>
        simp only [fetchOperands, fetch8_eq, State.inMem, State.setPc_pc, State.setPc_mem,
          Word.add_one_add_one]
        by_cases h1 : (s.pc + 1).toNat < s.mem.size.val
        · simp only [h1, if_true]; exact .i ins hd
        · simp only [h1, if_false]; exact .operandOutside ins _
      | a mk =>
        simp only [fetchOperands, fetch16_eq, State.inMem, State.setPc_pc, State.setPc_mem,
          Word.add_one_add_one, Word.add_one_add_two]
        by_cases h1 : (s.pc + 1).toNat < s.mem.size.val
        · by_cases h2 : (s.pc + 2).toNat < s.mem.size.val
          · simp only [h1, h2, if_true]; exact .a ins hd
          · simp only [h1, h2, if_true, if_false]; exact .operandOutside ins _
        · simp only [h1, if_false]; exact .operandOutside ins _
  · exact .opcodeOutside ‹_›

/-- Everything a step can do: nothing in Halted, the entry of a fetch error, or the effect of the
fetched instruction. -/
inductive StepEffect (s t : State) : Prop where
  | halted (h : s.halted = true) (e : t = s) : StepEffect s t
  | fetchError {e : Fault} {s' : State} (h : s.running) (f : FetchEffect s (.raise e s'))
      (eq : t = errorEntry e s') : StepEffect s t
  | executed {i : Instr} {s' : State} (h : s.running) (f : FetchEffect s (.ok i s'))
      (eff : Effect s' i t) : StepEffect s t

theorem step_effect {s t : State} (h : step s = .next t) : StepEffect s t := by
  cases hh : s.halted with
  | true =>
    rw [step_halted hh] at h
    cases h
    exact .halted hh rfl
  | false =>
    rw [step_running hh] at h
    have f := fetchInstr_effect s
    cases hf : fetchInstr s with
    | ok i s' =>
      rw [hf] at h f
      exact .executed hh f (exec_effect h)
    | raise e s' =>
      rw [hf] at h f
      cases h
      exact .fetchError hh f rfl

end Sys2Proof.Machine
end

