-- ==== Sys2Proof/Laws/PerInstr.lean ====
section
/-! SUPPORT. Statements about every instruction, one lemma per constructor. -/

namespace Sys2Proof.Laws

/-- The bytes of an instruction are as many as its format says and begin with a defined opcode
whose descriptor has that format (30_encoding.md R80, R84, R85). -/
def EncodeFormat.Statement (i : Instr) : Prop :=
  (encode i).length = i.length ∧
    (encode i).head?.bind (fun op => (descriptor op).map Descriptor.format) = some i.format

namespace EncodeFormat

theorem load (a : Word) : Statement (.load a) := ⟨rfl, rfl⟩
theorem store (a : Word) : Statement (.store a) := ⟨rfl, rfl⟩
theorem add (a : Word) : Statement (.add a) := ⟨rfl, rfl⟩
theorem sub (a : Word) : Statement (.sub a) := ⟨rfl, rfl⟩
theorem inc : Statement .inc := ⟨rfl, rfl⟩
theorem dec : Statement .dec := ⟨rfl, rfl⟩
theorem and (a : Word) : Statement (.and a) := ⟨rfl, rfl⟩
theorem or (a : Word) : Statement (.or a) := ⟨rfl, rfl⟩
theorem xor (a : Word) : Statement (.xor a) := ⟨rfl, rfl⟩
theorem jmp (a : Word) : Statement (.jmp a) := ⟨rfl, rfl⟩
theorem jz (a : Word) : Statement (.jz a) := ⟨rfl, rfl⟩
theorem jnz (a : Word) : Statement (.jnz a) := ⟨rfl, rfl⟩
theorem lda (v : Byte) : Statement (.lda v) := ⟨rfl, rfl⟩
theorem mov : Statement .mov := ⟨rfl, rfl⟩
theorem mul : Statement .mul := ⟨rfl, rfl⟩
theorem div : Statement .div := ⟨rfl, rfl⟩
theorem cmp : Statement .cmp := ⟨rfl, rfl⟩
theorem call (a : Word) : Statement (.call a) := ⟨rfl, rfl⟩
theorem ret : Statement .ret := ⟨rfl, rfl⟩
theorem jp (a : Word) : Statement (.jp a) := ⟨rfl, rfl⟩
theorem jn (a : Word) : Statement (.jn a) := ⟨rfl, rfl⟩
theorem int (a : Word) : Statement (.int a) := ⟨rfl, rfl⟩
theorem cli : Statement .cli := ⟨rfl, rfl⟩
theorem sei : Statement .sei := ⟨rfl, rfl⟩
theorem push : Statement .push := ⟨rfl, rfl⟩
theorem pop : Statement .pop := ⟨rfl, rfl⟩
theorem halt : Statement .halt := ⟨rfl, rfl⟩

end EncodeFormat

end Sys2Proof.Laws
end

