-- ==== Sys2Proof/Machine/Assembly.lean ====
section
/-! DEFINITION. The notation of the spec's listings (30_encoding.md R90, R91; the spec's own D17,
log 20): the bytes that one line of a listing stands for. The machine itself reads bytes only. -/

namespace Sys2Proof.Machine

/-- The mnemonics of 30_encoding.md R85 with their opcode bytes. -/
def mnemonicTable : List (String × Byte) :=
  [("LOAD", 0x01), ("STORE", 0x02), ("ADD", 0x03), ("SUB", 0x04), ("INC", 0x07), ("DEC", 0x08),
    ("AND", 0x09), ("OR", 0x0A), ("XOR", 0x0B), ("JMP", 0x10), ("JZ", 0x11), ("JNZ", 0x12),
    ("LDA", 0x13), ("MOV", 0x14), ("MUL", 0x15), ("DIV", 0x16), ("CMP", 0x17), ("CALL", 0x18),
    ("RET", 0x19), ("JP", 0x1A), ("JN", 0x1B), ("INT", 0x1C), ("CLI", 0x1D), ("SEI", 0x1E),
    ("PUSH", 0x1F), ("POP", 0x20), ("HALT", 0xFF)]

/-- The instruction of a mnemonic and its operand: none for format N, 0 to 255 for format I, 0 to
65535 for format A (30_encoding.md R90). -/
def assemble (mnemonic : List Char) (operand : Option Nat) : Option Instr :=
  match (mnemonicTable.find? (·.1.toList == mnemonic)).bind (descriptor ·.2), operand with
  | some (.n instr), none => some instr
  | some (.i instr), some v => if v < 256 then some (instr (BitVec.ofNat 8 v)) else none
  | some (.a instr), some v => if v < 65536 then some (instr (BitVec.ofNat 16 v)) else none
  | _, _ => none

/-- The value of a digit, in either case (log 20). -/
def digitValue (c : Char) : Option Nat :=
  if 48 ≤ c.toNat ∧ c.toNat ≤ 57 then some (c.toNat - 48)
  else if 65 ≤ c.toNat ∧ c.toNat ≤ 70 then some (c.toNat - 55)
  else if 97 ≤ c.toNat ∧ c.toNat ≤ 102 then some (c.toNat - 87)
  else none

/-- Continues the number `n` with more digits of a base. -/
def digitsValue (base n : Nat) : List Char → Option Nat
  | [] => some n
  | c :: cs =>
    match digitValue c with
    | some d => if d < base then digitsValue base (base * n + d) cs else none
    | none => none

/-- A number in decimal, or in hexadecimal with the prefix `0x` (30_encoding.md R90). -/
def numberValue : List Char → Option Nat
  | [] => none
  | '0' :: 'x' :: c :: cs => digitsValue 16 0 (c :: cs)
  | cs => digitsValue 10 0 cs

/-- The words of a line up to its comment, which a `;` starts (30_encoding.md R90); `word` is the
word read so far, its last character first. -/
def lineWords (word : List Char) : List Char → List (List Char)
  | [] => if word.isEmpty then [] else [word.reverse]
  | c :: cs =>
    if c = ';' then if word.isEmpty then [] else [word.reverse]
    else if c = ' ' then
      if word.isEmpty then lineWords [] cs else word.reverse :: lineWords [] cs
    else lineWords (c :: word) cs

/-- Data bytes, each two hexadecimal digits (30_encoding.md R91). -/
def dataBytes : List (List Char) → Option (List Byte)
  | [] => some []
  | [hi, lo] :: rest =>
    match digitsValue 16 0 [hi, lo], dataBytes rest with
    | some v, some bs => some (BitVec.ofNat 8 v :: bs)
    | _, _ => none
  | _ => none

/-- The bytes of a line's words after its address: an instruction's, or data (30_encoding.md R80,
R90, R91). DESIGN CHOICE (log 20): one or the other, so that words with a column of encoded bytes
before the mnemonic, as the spec's own listings print it, are refused. -/
def wordsBytes (words : List (List Char)) : Option (List Byte) :=
  let instr :=
    match words with
    | [mnemonic] => assemble mnemonic none
    | [mnemonic, operand] => (numberValue operand).bind fun v => assemble mnemonic (some v)
    | _ => none
  match instr with
  | some i => some (encode i)
  | none => dataBytes words

/-- What a line says: the address before it, when it has one, and its bytes (30_encoding.md R90).
DESIGN CHOICE (log 20): a line with a column of encoded bytes between the address and the mnemonic
is refused; a line may be empty or hold an address alone, and the address has no upper bound. -/
def assembleLine (line : List Char) : Option (Option Nat × List Byte) :=
  match lineWords [] line with
  | [] => some (none, [])
  | first :: rest =>
    match first.reverse with
    | ':' :: address =>
      match numberValue address.reverse, wordsBytes rest with
      | some a, some bs => some (some a, bs)
      | _, _ => none
    | _ => (wordsBytes (first :: rest)).map fun bs => (none, bs)

end Sys2Proof.Machine
end

