-- ==== Sys2Proof/Tests/Slice0.lean ====
section
/-! SUPPORT. Tests: decoding of words written out from 30_encoding.md R80 and R85, ill-formed
strings that WellFormed refuses, single steps of the vectors of 95_test_vectors.md (the vector's
name stands before each), and a witness of the hypotheses of each statement that has some. -/

namespace Sys2Proof.Tests.Slice0

open Sys2Proof Sys2Proof.Machine

/-! ### Decoding, a word for every constructor, bit by bit from R80 and R85 -/

theorem test_decode_load : decode [0b00000001, 0b00110100, 0b00010010] = .ok (.load 0x1234, []) := rfl
theorem test_decode_store : decode [0b00000010, 0b00110100, 0b00010010] = .ok (.store 0x1234, []) := rfl
theorem test_decode_add : decode [0b00000011, 0b00110100, 0b00010010] = .ok (.add 0x1234, []) := rfl
theorem test_decode_sub : decode [0b00000100, 0b00110100, 0b00010010] = .ok (.sub 0x1234, []) := rfl
theorem test_decode_inc : decode [0b00000111] = .ok (.inc, []) := rfl
theorem test_decode_dec : decode [0b00001000] = .ok (.dec, []) := rfl
theorem test_decode_and : decode [0b00001001, 0b00110100, 0b00010010] = .ok (.and 0x1234, []) := rfl
theorem test_decode_or : decode [0b00001010, 0b00110100, 0b00010010] = .ok (.or 0x1234, []) := rfl
theorem test_decode_xor : decode [0b00001011, 0b00110100, 0b00010010] = .ok (.xor 0x1234, []) := rfl
theorem test_decode_jmp : decode [0b00010000, 0b00110100, 0b00010010] = .ok (.jmp 0x1234, []) := rfl
theorem test_decode_jz : decode [0b00010001, 0b00110100, 0b00010010] = .ok (.jz 0x1234, []) := rfl
theorem test_decode_jnz : decode [0b00010010, 0b00110100, 0b00010010] = .ok (.jnz 0x1234, []) := rfl
theorem test_decode_lda : decode [0b00010011, 0b00001010] = .ok (.lda 10, []) := rfl
theorem test_decode_mov : decode [0b00010100] = .ok (.mov, []) := rfl
theorem test_decode_mul : decode [0b00010101] = .ok (.mul, []) := rfl
theorem test_decode_div : decode [0b00010110] = .ok (.div, []) := rfl
theorem test_decode_cmp : decode [0b00010111] = .ok (.cmp, []) := rfl
theorem test_decode_call : decode [0b00011000, 0b00110100, 0b00010010] = .ok (.call 0x1234, []) := rfl
theorem test_decode_ret : decode [0b00011001] = .ok (.ret, []) := rfl
theorem test_decode_jp : decode [0b00011010, 0b00110100, 0b00010010] = .ok (.jp 0x1234, []) := rfl
theorem test_decode_jn : decode [0b00011011, 0b00110100, 0b00010010] = .ok (.jn 0x1234, []) := rfl
theorem test_decode_int : decode [0b00011100, 0b00110100, 0b00010010] = .ok (.int 0x1234, []) := rfl
theorem test_decode_cli : decode [0b00011101] = .ok (.cli, []) := rfl
theorem test_decode_sei : decode [0b00011110] = .ok (.sei, []) := rfl
theorem test_decode_push : decode [0b00011111] = .ok (.push, []) := rfl
theorem test_decode_pop : decode [0b00100000] = .ok (.pop, []) := rfl
theorem test_decode_halt : decode [0b11111111] = .ok (.halt, []) := rfl

theorem test_decode_undefined : decode [0x05, 0x07] = .error (.unknownOpcode 0x05) := rfl

theorem test_decode_truncated : decode [0x01, 0x34] = .error (.truncated 0x01) := rfl

theorem test_encode_store : encode (.store 0x0020) = [0x02, 0x20, 0x00] := by decide

theorem test_decodeTableWord_load : decodeTableWord 24 0x123401 = some (.load 0x1234) := by decide

theorem test_decodeTableWord_short : decodeTableWord 8 0xFF01 = some (.load 0x0000) := by decide

/-! ### WellFormed refuses an ill-formed string for each check -/

theorem test_wellFormed_no_opcode : hasOpcode [] = false ∧ wellFormedBytes [] = false := by decide

theorem test_wellFormed_undefined :
    opcodeDefined [0x06] = false ∧ wellFormedBytes [0x06] = false := by decide

theorem test_wellFormed_length :
    lengthExact [0x07, 0x00] = false ∧ wellFormedBytes [0x07, 0x00] = false ∧
      wellFormedBytes [0x01, 0x34] = false := by decide

/-! ### Single steps -/

/-- A state after construction with these cells of memory. -/
def loaded (size : Config.MemSize) (cells : List Host.Cell) : State :=
  { State.construct size with mem := { size := size, cells := cells } }

/-- The state after one step. -/
def after (s : State) : State :=
  match step s with
  | .next t => t
  | _ => s

/-- L1. -/
theorem test_load :
    let t := after (loaded 65536 [(0x0000, 0x01), (0x0001, 0x34), (0x0002, 0x12), (0x1234, 0xAB)])
    t.acc = 0xAB ∧ t.pc = 3 := by decide

/-- L3. -/
theorem test_load_outside :
    let t := after { loaded 0x1000 [(0x0000, 0x01), (0x0002, 0x10)] with acc := 0x42 }
    t.err = 1 ∧ t.pc = 3 ∧ t.acc = 0x42 ∧ t.halted = true := by decide

/-- L5. -/
theorem test_store :
    let t := after { loaded 65536 [(0x0000, 0x02), (0x0002, 0x02)] with acc := 0x5A }
    t.mem.read 0x0200 = some 0x5A ∧ t.pc = 3 := by decide

/-- L10. -/
theorem test_store_own_opcode :
    let t := after { loaded 65536 [(0x0000, 0x02)] with acc := 0x77 }
    t.mem.read 0 = some 0x77 ∧ t.pc = 3 := by decide

/-- L8. -/
theorem test_lda :
    let t := after { loaded 65536 [(0x0000, 0x13), (0x0001, 0x80)] with acc := 0x55 }
    t.acc = 0x80 ∧ t.pc = 2 := by decide

/-- F3. -/
theorem test_lda_wraps :
    let t := after { loaded 65536 [(0x0000, 0x5A), (0xFFFF, 0x13)] with pc := 0xFFFF }
    t.acc = 0x5A ∧ t.pc = 1 := by decide

/-- A4. -/
theorem test_add :
    let t := after { loaded 65536 [(0x0000, 0x03), (0x0001, 0x40), (0x0040, 0xFF)] with acc := 0xFF }
    t.acc = 0xFE ∧ t.pc = 3 := by decide

/-- A7. -/
theorem test_add_outside :
    let t := after { loaded 0x1000 [(0x0000, 0x03), (0x0002, 0x10)] with acc := 0x10 }
    t.err = 1 ∧ t.acc = 0x10 ∧ t.pc = 3 := by decide

/-- B1. -/
theorem test_sub :
    let t := after { loaded 65536 [(0x0000, 0x04), (0x0001, 0x40), (0x0040, 0x20)] with acc := 0x10 }
    t.acc = 0xF0 := by decide

/-- G1. -/
theorem test_and :
    let t := after { loaded 65536 [(0x0000, 0x09), (0x0001, 0x40), (0x0040, 0xAA)] with acc := 0xCC }
    t.acc = 0x88 := by decide

/-- G3. -/
theorem test_or :
    let t := after { loaded 65536 [(0x0000, 0x0A), (0x0001, 0x40), (0x0040, 0xAA)] with acc := 0xCC }
    t.acc = 0xEE := by decide

/-- G5. -/
theorem test_xor :
    let t := after { loaded 65536 [(0x0000, 0x0B), (0x0001, 0x40), (0x0040, 0xAA)] with acc := 0xCC }
    t.acc = 0x66 := by decide

/-- I1. -/
theorem test_inc :
    let t := after { loaded 65536 [(0x0000, 0x07)] with acc := 0xFF }
    t.acc = 0x00 ∧ t.pc = 1 := by decide

/-- F1. -/
theorem test_inc_wraps_pc :
    let t := after { loaded 65536 [(0xFFFF, 0x07)] with pc := 0xFFFF }
    t.acc = 0x01 ∧ t.pc = 0 := by decide

/-- I4. -/
theorem test_dec :
    let t := after (loaded 65536 [(0x0000, 0x08)])
    t.acc = 0xFF := by decide

/-- M1. -/
theorem test_mov :
    let t := after { loaded 65536 [(0x0000, 0x14)] with regA := 0x12, regB := 0x34 }
    t.regB = 0x12 ∧ t.regA = 0x12 := by decide

/-- M2. -/
theorem test_mul :
    let t := after { loaded 65536 [(0x0000, 0x15)] with regA := 0x0C, regB := 0x0B, acc := 0x77 }
    t.acc = 0x84 := by decide

/-- M4. -/
theorem test_mul_wraps :
    let t := after { loaded 65536 [(0x0000, 0x15)] with regA := 0xFF, regB := 0xFF }
    t.acc = 0x01 := by decide

/-- Q7. -/
theorem test_div :
    let t := after { loaded 65536 [(0x0000, 0x16)] with regA := 0x80, regB := 0xFF, acc := 0x77 }
    t.acc = 0x00 ∧ t.err = 0 := by decide

/-- Q8. -/
theorem test_div_by_zero :
    let t := after { loaded 65536 [(0x0000, 0x16)] with regA := 0x05, acc := 0x77 }
    t.err = 3 ∧ t.acc = 0x77 ∧ t.pc = 1 ∧ t.halted = true := by decide

/-- Z1. -/
theorem test_cmp :
    let t := after { loaded 65536 [(0x0000, 0x17)] with acc := 5, regA := 1, regB := 2, sp := 0x100 }
    t.pc = 1 ∧ t.acc = 5 ∧ t.halted = false := by decide

/-- J1. -/
theorem test_jmp :
    let t := after (loaded 65536 [(0x0000, 0x10), (0x0002, 0x80)])
    t.pc = 0x8000 := by decide

/-- F2. -/
theorem test_jmp_wraps :
    let t := after { loaded 65536 [(0xFFFE, 0x10), (0xFFFF, 0x10)] with pc := 0xFFFE }
    t.pc = 0x0010 := by decide

/-- J3. -/
theorem test_jz :
    let t := after (loaded 65536 [(0x0000, 0x11), (0x0001, 0x20)])
    t.pc = 0x0020 := by decide

/-- J8. -/
theorem test_jz_operand_first :
    let t := after { loaded 2 [(0x0000, 0x11)] with acc := 1 }
    t.err = 1 ∧ t.pc = 2 := by decide

/-- J6. -/
theorem test_jnz :
    let t := after { loaded 65536 [(0x0000, 0x12), (0x0001, 0x20)] with acc := 0xFF }
    t.pc = 0x0020 := by decide

/-- J7. -/
theorem test_jnz_not_taken :
    let t := after (loaded 65536 [(0x0000, 0x12), (0x0001, 0x20)])
    t.pc = 3 := by decide

/-- K1. -/
theorem test_call :
    let t := after { loaded 65536 [(0x0200, 0x18), (0x0202, 0x03)] with pc := 0x200, sp := 0x100 }
    t.sp = 0xFE ∧ t.mem.read16 0xFE = some 0x0203 ∧ t.pc = 0x300 := by decide

/-- K6. -/
theorem test_call_no_partial_write :
    let t := after { loaded 0x1000 [(0x0000, 0x18), (0x0002, 0x03), (0x0FFF, 0x11)] with sp := 0x1001 }
    t.err = 1 ∧ t.sp = 0x0FFF ∧ t.pc = 3 ∧ t.mem.read 0xFFF = some 0x11 := by decide

/-- T1. -/
theorem test_ret :
    let t := after { loaded 65536 [(0x0300, 0x19)] with pc := 0x300, sp := 0xFE }
    t.sp = 0x100 ∧ t.mem.read16 0x100 = some 0x0301 ∧ t.pc = 0x301 := by decide

/-- T3. -/
theorem test_ret_outside :
    let t := after { loaded 65536 [(0x0010, 0x19)] with pc := 0x10, sp := 0xFFFD }
    t.err = 1 ∧ t.sp = 0xFFFF ∧ t.pc = 0x11 := by decide

/-- J9. -/
theorem test_jp :
    let t := after { loaded 65536 [(0x0000, 0x1A), (0x0002, 0x03)] with acc := 0x80 }
    t.pc = 0x300 := by decide

/-- J11. -/
theorem test_jn :
    let t := after { loaded 65536 [(0x0000, 0x1B), (0x0002, 0x03)] with acc := 1 }
    t.pc = 0x300 := by decide

/-- W1. -/
theorem test_int :
    let t := after { loaded 65536 [(0x0010, 0x1C), (0x0012, 0x40)] with pc := 0x10, sp := 0x100 }
    t.sp = 0xFE ∧ t.mem.read16 0xFE = some 0x0013 ∧ t.pc = 0x4000 := by decide

/-- W3. -/
theorem test_int_no_room :
    let t := after { loaded 65536 [(0x0000, 0x1C), (0x0002, 0x40)] with sp := 1 }
    t.err = 5 ∧ t.pc = 3 ∧ t.sp = 1 := by decide

/-- X1. -/
theorem test_cli :
    let t := after { loaded 65536 [(0x0000, 0x1D)] with interruptsEnabled := true }
    t.interruptsEnabled = false ∧ t.pc = 1 := by decide

/-- X3. -/
theorem test_sei :
    let t := after (loaded 65536 [(0x0000, 0x1E)])
    t.interruptsEnabled = true ∧ t.flags = 0b10 ∧ t.pc = 1 := by decide

/-- U5. -/
theorem test_push :
    let t := after { loaded 0x100 [(0x0000, 0x1F)] with sp := 0x100, regA := 0x77 }
    t.sp = 0xFF ∧ t.mem.read 0xFF = some 0x77 ∧ t.pc = 1 := by decide

/-- U2. -/
theorem test_push_underflow :
    let t := after { loaded 65536 [(0x0000, 0x1F)] with regA := 0x77 }
    t.err = 4 ∧ t.sp = 0 ∧ t.pc = 1 := by decide

/-- V2. -/
theorem test_pop :
    let t := after { loaded 65536 [(0x0000, 0x20), (0xFFFF, 0x09)] with sp := 0xFFFF }
    t.regA = 9 ∧ t.sp = 0 ∧ t.pc = 1 := by decide

/-- V3. -/
theorem test_pop_outside :
    let t := after { loaded 0x100 [(0x0000, 0x20)] with sp := 0x100, regA := 0x55 }
    t.err = 1 ∧ t.sp = 0x100 ∧ t.regA = 0x55 := by decide

/-- X6. -/
theorem test_halt :
    let t := after { loaded 65536 [(0xFFFF, 0xFF)] with pc := 0xFFFF }
    t.halted = true ∧ t.pc = 0 ∧ t.err = 0 := by decide

/-- F11. -/
theorem test_undefined :
    let t := after { loaded 65536 [(0xFFFF, 0x21)] with pc := 0xFFFF }
    t.err = 2 ∧ t.errOpcode = 0x21 ∧ t.errPc = 0xFFFF ∧ t.pc = 0 := by decide

/-- F4. -/
theorem test_opcode_outside :
    let t := after { loaded 0x100 [] with pc := 0x100 }
    t.err = 1 ∧ t.pc = 0x100 ∧ t.halted = true := by decide

/-- The first step after reset, with a word placed where it fetches (log 4). -/
theorem test_withFetchWord : (after (State.reset.withFetchWord 24 0x003413)).acc = 0x34 := by decide

/-- H2, H4. -/
theorem test_word_write_at_the_end :
    ({ size := 65536, cells := [] } : Memory).write16 0xFFFF 0xA1B2 = none ∧
      ({ size := 0x100, cells := [(0xFF, 0x11)] } : Memory).write16 0xFF 0x2233 = none := by decide

/-- A write of what an unlisted address reads as takes the cell out, and a write between two cells
goes between them. -/
theorem test_canonical_form :
    (({ size := 16, cells := [(3, 1), (5, 2)] } : Memory).set 3 0).cells = [(5, 2)] ∧
      (({ size := 16, cells := [(3, 1), (5, 2)] } : Memory).set 4 9).cells =
        [(3, 1), (4, 9), (5, 2)] := by decide

/-- H7. -/
theorem test_host_write_refused : hostWrite 0x100 0xAA (State.construct 0x100) = none := by decide

/-- The examples of 30_encoding.md R90, and a line of data. -/
theorem test_assembleLine :
    assembleLine "LDA 10".toList = some (none, [0x13, 0x0A]) ∧
      assembleLine "0x0003: STORE 0x0020 ; result".toList = some (some 3, [0x02, 0x20, 0x00]) ∧
      assembleLine "0A fF".toList = some (none, [0x0A, 0xFF]) ∧
      assembleLine "LDA 256".toList = none ∧ assembleLine "INC 1".toList = none := by decide

/-! ### Witnesses of the hypotheses of the statements

`codeAt op size` fetches the opcode `op`: with `size` 3 both operand bytes are in memory, with 2
only the first, with 1 neither. -/

def codeAt (op : Byte) (size : Config.MemSize) : State := loaded size [(0, op)]

/-- The hypotheses of every clause of `StepsFormatN`, `StepsFormatI` and `StepsFormatA`. -/
theorem witness_formats :
    (∀ op ∈ ([0x07, 0x08, 0x14, 0x15, 0x16, 0x17, 0x19, 0x1D, 0x1E, 0x1F, 0x20, 0xFF] : List Byte),
      (codeAt op 1).fetches op) ∧
    ((codeAt 0x13 2).fetches 0x13 ∧ (codeAt 0x13 2).inMem ((codeAt 0x13 2).pc + 1).toNat) ∧
    ((codeAt 0x13 1).fetches 0x13 ∧ ¬ (codeAt 0x13 1).inMem ((codeAt 0x13 1).pc + 1).toNat) ∧
    (∀ op ∈ ([0x01, 0x02, 0x03, 0x04, 0x09, 0x0A, 0x0B, 0x10, 0x11, 0x12, 0x18, 0x1A, 0x1B,
        0x1C] : List Byte),
      ((codeAt op 3).fetches op ∧ (codeAt op 3).inMem ((codeAt op 3).pc + 1).toNat ∧
        (codeAt op 3).inMem ((codeAt op 3).pc + 2).toNat) ∧
      ((codeAt op 1).fetches op ∧ ¬ (codeAt op 1).inMem ((codeAt op 1).pc + 1).toNat) ∧
      ((codeAt op 2).fetches op ∧ (codeAt op 2).inMem ((codeAt op 2).pc + 1).toNat ∧
        ¬ (codeAt op 2).inMem ((codeAt op 2).pc + 2).toNat)) := by decide

/-- Operand addresses at both sides of the bound, for LoadInstruction, StoreInstruction,
AddSubInstructions, AndOrXorInstructions, JumpTargetCheckedAtNextFetch, ByteReadContract,
ByteWriteContract, MemoryRoundTrip and HostMoves. -/
theorem witness_byte_bounds :
    (State.construct 16).inMem (0x000F : Word).toNat ∧
      ¬ (State.construct 16).inMem (0x0010 : Word).toNat ∧ (State.construct 16).running := by decide

/-- Word accesses at both sides of the bound, for WordWriteWholeOrNothing, MemoryRoundTrip,
MixedWidthBytes and HostMoves. -/
theorem witness_word_bounds :
    (State.construct 16).inMem ((0x000E : Word).toNat + 1) ∧
      ¬ (State.construct 16).inMem ((0x000F : Word).toNat + 1) := by decide

theorem witness_OpcodeMapRows :
    (∀ op ∈ ([0x00, 0x05, 0x06, 0x0C, 0x0F, 0x21, 0xFE] : List Byte), UndefinedOpcode op) ∧
      ∀ op ∈ ([0x01, 0x04, 0x07, 0x0B, 0x10, 0x20, 0xFF] : List Byte), ¬ UndefinedOpcode op := by
  decide

theorem witness_EqualReadsEqualMemory :
    ∃ m m' : Memory, m.wf ∧ m'.wf ∧ m.size = m'.size ∧ (∀ a, m.get a = m'.get a) ∧ m.cells ≠ [] :=
  ⟨{ size := 16, cells := [(3, 1)] }, { size := 16, cells := [(3, 1)] }, by decide, by decide, rfl,
    fun _ => rfl, by decide⟩

theorem witness_FetchSixteen :
    ((State.construct 2).inMem (State.construct 2).pc.toNat ∧
      (State.construct 2).inMem ((State.construct 2).pc + 1).toNat) ∧
    ¬ (State.construct 0).inMem (State.construct 0).pc.toNat ∧
    ((State.construct 1).inMem (State.construct 1).pc.toNat ∧
      ¬ (State.construct 1).inMem ((State.construct 1).pc + 1).toNat) ∧
    ({ State.reset with pc := 0xFFFF }.mem.size.val = 65536 ∧
      { State.reset with pc := 0xFFFF }.pc = 0xFFFF) := by decide

theorem witness_FetchEight :
    (State.construct 1).inMem (State.construct 1).pc.toNat ∧
      ¬ (State.construct 0).inMem (State.construct 0).pc.toNat := by decide

theorem witness_StepRunsDecodedInstruction :
    let s := loaded 65536 [(0, 0x10), (0xFFFE, 0x01), (0xFFFF, 0x34)]
    let s := { s with pc := 0xFFFE }
    s.running ∧ decode (s.codeBytes 3) = .ok (.load 0x1034, []) ∧
      ∀ k, k < (Instr.load 0x1034).length → s.inMem (s.codeAddr k) := by
  refine ⟨rfl, rfl, by decide⟩

theorem witness_StepFetchErrors :
    ((State.construct 0).running ∧ ¬ (State.construct 0).inMem (State.construct 0).pc.toNat) ∧
    ((codeAt 0x05 1).running ∧ (codeAt 0x05 1).inMem (codeAt 0x05 1).pc.toNat ∧
      UndefinedOpcode ((codeAt 0x05 1).mem.get (codeAt 0x05 1).pc.toNat)) ∧
    ((codeAt 0x13 1).running ∧ (codeAt 0x13 1).inMem (codeAt 0x13 1).pc.toNat ∧
      descriptor ((codeAt 0x13 1).mem.get (codeAt 0x13 1).pc.toNat) = some (.i .lda) ∧
      (Descriptor.i Instr.lda).format ≠ .n ∧
      ¬ (codeAt 0x13 1).inMem ((codeAt 0x13 1).pc + 1).toNat) ∧
    ((codeAt 0x01 2).running ∧ (codeAt 0x01 2).inMem (codeAt 0x01 2).pc.toNat ∧
      descriptor ((codeAt 0x01 2).mem.get (codeAt 0x01 2).pc.toNat) = some (.a .load) ∧
      (Descriptor.a Instr.load).format = .a ∧
      (codeAt 0x01 2).inMem ((codeAt 0x01 2).pc + 1).toNat ∧
      ¬ (codeAt 0x01 2).inMem ((codeAt 0x01 2).pc + 2).toNat) :=
  ⟨by decide, by decide, ⟨rfl, by decide, rfl, by decide, by decide⟩,
    ⟨rfl, by decide, rfl, rfl, by decide, by decide⟩⟩

/-- A halted state, for HaltedStaysAsItIs and the last clause of HostMoves. -/
theorem witness_HaltedStaysAsItIs : { State.construct 16 with halted := true }.halted = true := rfl

/-- A running state without an error and its step, for RunStateTransitions, RegisterWriters,
StepWriteFootprint, InterruptFlagIsNeverRead and ErrorStatusIsNeverRead: a STORE that changes a
byte. -/
theorem witness_step :
    let s := { loaded 16 [(0, 0x02), (1, 0x08)] with acc := 0x5A }
    ∃ t, s.running ∧ s.err = 0 ∧ step s = .next t ∧ t.mem.get 8 ≠ s.mem.get 8 :=
  ⟨_, rfl, rfl, rfl, by decide⟩

/-- Every register of RegisterWriters is changed by some step. -/
theorem witness_RegisterWriters :
    (after { codeAt 0x07 1 with acc := 1 }).acc ≠ 1 ∧
    (after { loaded 2 [(0, 0x20), (1, 5)] with sp := 1 }).regA ≠ 0 ∧
    (after { codeAt 0x14 1 with regA := 1 }).regB ≠ 0 ∧
    (after { codeAt 0x1F 2 with sp := 2 }).sp ≠ 2 ∧
    (after (codeAt 0x1E 1)).interruptsEnabled ≠ false ∧
    (after (codeAt 0xFF 1)).halted = true ∧ (after (codeAt 0xFF 1)).err = 0 := by decide

/-- A run that ends by HALT, for RunEndsOnce and RunKeepsInvariant. -/
theorem witness_RunEndsOnce :
    ∃ t, run 1 (codeAt 0xFF 16) = some t ∧ Inv (codeAt 0xFF 16) :=
  ⟨_, rfl, by constructor <;> decide⟩

/-- A state with the invariant that steps, for StepKeepsInvariant: here into an error. -/
theorem witness_StepKeepsInvariant :
    ∃ t, Inv (codeAt 0x1F 16) ∧ step (codeAt 0x1F 16) = .next t ∧ t.err = 4 :=
  ⟨_, by constructor <;> decide, rfl, by decide⟩

theorem witness_HostMovesKeepInvariant :
    Inv (codeAt 0x1F 16) ∧ (∃ t, hostWrite 15 0xAA (codeAt 0x1F 16) = some t) ∧
      (∃ t, hostWrite16 14 0xAABB (codeAt 0x1F 16) = some t) ∧
      ∃ t, hostPreset (.sp 16) (codeAt 0x1F 16) = some t :=
  ⟨by constructor <;> decide, ⟨_, rfl⟩, ⟨_, rfl⟩, ⟨_, rfl⟩⟩

theorem witness_PlacedWordRunsNext :
    decodeTableWord 24 0x123401 = some (.load 0x1234) ∧
      State.reset.inMem State.reset.pc.toNat ∧ State.reset.inMem (State.reset.pc + 1).toNat ∧
      State.reset.inMem (State.reset.pc + 2).toNat := by decide

theorem witness_DivInstruction :
    { State.construct 16 with regB := 1 }.regB ≠ 0 ∧ (State.construct 16).regB = 0 := by decide

theorem witness_JzJnzInstructions :
    (State.construct 16).acc.toNat = 0 ∧ { State.construct 16 with acc := 1 }.acc.toNat ≠ 0 := by
  decide

/-- `sp` at the bounds of each clause of CallInstruction and IntInstruction. -/
theorem witness_CallInstruction :
    { State.construct 16 with sp := 1 }.sp.toNat < 2 ∧
    (let s := { State.construct 16 with sp := 2 };
      2 ≤ s.sp.toNat ∧ s.inMem ((s.sp - 2).toNat + 1)) ∧
    (let s := { State.construct 16 with sp := 16 };
      2 ≤ s.sp.toNat ∧ s.inMem ((s.sp - 2).toNat + 1)) ∧
    (let s := { State.construct 16 with sp := 17 };
      2 ≤ s.sp.toNat ∧ ¬ s.inMem ((s.sp - 2).toNat + 1)) := by decide

theorem witness_RetInstruction :
    (let s := { State.construct 16 with sp := 12 };
      s.inMem ((s.sp + 2).toNat + 1)) ∧
    (let s := { State.construct 16 with sp := 0xFFFE };
      s.inMem ((s.sp + 2).toNat + 1)) ∧
    (let s := { State.construct 16 with sp := 13 };
      ¬ s.inMem ((s.sp + 2).toNat + 1)) := by decide

theorem witness_RetAfterCallDoesNotReturn :
    let s := { State.construct 16 with sp := 14 }
    2 ≤ s.sp.toNat ∧ s.inMem (s.sp.toNat + 1) := by decide

/-- `sp` at the bounds of each clause of PushInstruction and PushPopRestores. -/
theorem witness_PushInstruction :
    (State.construct 16).sp.toNat = 0 ∧
    (let s := { State.construct 16 with sp := 1 };
      1 ≤ s.sp.toNat ∧ s.inMem (s.sp - 1).toNat) ∧
    (let s := { State.construct 16 with sp := 16 };
      1 ≤ s.sp.toNat ∧ s.inMem (s.sp - 1).toNat) ∧
    (let s := { State.construct 16 with sp := 17 };
      1 ≤ s.sp.toNat ∧ ¬ s.inMem (s.sp - 1).toNat) := by decide

theorem witness_PopInstruction :
    (let s := { State.construct 16 with sp := 15 };
      s.inMem s.sp.toNat) ∧
    (let s := { State.construct 16 with sp := 16 };
      ¬ s.inMem s.sp.toNat) := by decide

/-- The program of L7: STORE 0x0003 with 0xFF in `acc`. -/
theorem witness_StoreIntoNextOpcode :
    let s := { loaded 65536 [(0, 0x02), (1, 0x03)] with acc := 0xFF }
    s.fetches 0x02 ∧ s.acc = 0xFF ∧ s.inMem (s.pc + 1).toNat ∧ s.inMem (s.pc + 2).toNat ∧
      s.inMem (s.pc + 3).toNat ∧
      (s.mem.get (s.pc + 1).toNat).toNat + 256 * (s.mem.get (s.pc + 2).toNat).toNat =
        (s.pc + 3).toNat := by decide

end Sys2Proof.Tests.Slice0
end

section
/-! PROOFS. The obligations on the Memory contract (20_memory.md R52, R53, R55, R69). -/

namespace Sys2Proof.Machine

/-! ### Stores into the array, and reads of what they stored -/

/-- A byte put in the array is the one byte of the state that differs (20_memory.md R53). -/
theorem storesByte_setMem_set (s : State) (a : Nat) (v : Byte) :
    StoresByte s (s.setMem (s.mem.set a v)) a v :=
  ⟨rfl, Memory.set_size .., Memory.get_set_self .., fun _ hb => Memory.get_set_other _ _ hb⟩

/-- The low byte of a word stays after its high byte is put beside it (20_memory.md R55). -/
theorem Memory.get_set_next (m : Memory) (a : Nat) (lo hi : Byte) :
    ((m.set a lo).set (a + 1) hi).get a = lo := by
  rw [Memory.get_set_other _ _ (Nat.lt_succ_self a).ne, Memory.get_set_self]

/-- The two bytes of a word put in the array, low byte first, are the only bytes of the state that
differ (20_memory.md R55, R57). -/
theorem storesWord_setMem_set (s : State) (a : Nat) (v : Word) :
    StoresWord s (s.setMem ((s.mem.set a (lowByte v)).set (a + 1) (highByte v))) a v := by
  refine ⟨rfl, ?size, ?low, ?high, fun b ha hnext => ?frame⟩
  case size => rw [State.setMem_mem, Memory.set_size, Memory.set_size]
  case low => rw [State.setMem_mem, Memory.get_set_next, lowByte_toNat]
  case high => rw [State.setMem_mem, Memory.get_set_self, highByte_toNat]
  case frame =>
    rw [State.setMem_mem, Memory.get_set_other _ _ hnext, Memory.get_set_other _ _ ha]

/-- A byte written inside memory is read back (20_memory.md R69). -/
theorem Memory.write_bind_read {m : Memory} {a : Nat} (b : Byte) (h : a < m.size.val) :
    (m.write a b).bind (·.read a) = some b := by
  have still : a < (m.set a b).size.val := by rwa [Memory.set_size]
  rw [Memory.write_inside b h, Option.bind_some, Memory.read_inside still, Memory.get_set_self]

/-- A word written inside memory is read back (20_memory.md R69). -/
theorem Memory.write16_bind_read16 {m : Memory} {a : Nat} (v : Word) (h : a + 1 < m.size.val) :
    (m.write16 a v).bind (·.read16 a) = some v := by
  have still : a + 1 < ((m.set a (lowByte v)).set (a + 1) (highByte v)).size.val := by
    rwa [Memory.set_size, Memory.set_size]
  rw [Memory.write16_inside v h, Option.bind_some, Memory.read16_inside still,
    Memory.get_set_next, Memory.get_set_self, wordOfBytes_bytes]

/-! ### The obligations -/

/-- Settles O5: the array by its two bounds lemmas, the Processor's access by `memRead_eq`. -/
theorem byteReadContract : Obligations.ByteReadContract := by
  refine ⟨fun m a => ?_, memRead_eq⟩
  split
  next inside => exact Memory.read_inside inside
  next outside => exact Memory.read_outside outside

/-- Settles O6: `memWrite_eq` on each side of the bound, the frame by `storesByte_setMem_set`. -/
theorem byteWriteContract : Obligations.ByteWriteContract := by
  refine fun a v s => ⟨fun inside => ⟨_, ?_, storesByte_setMem_set s a.toNat v⟩,
    fun outside => ⟨?_, Memory.write_outside v outside⟩⟩
  · rw [memWrite_eq, if_pos inside]
  · rw [memWrite_eq, if_neg outside]

/-- Settles O7: `memWrite16_eq` on each side of the bound of the second byte, the frame by
`storesWord_setMem_set`. -/
theorem wordWriteWholeOrNothing : Obligations.WordWriteWholeOrNothing := by
  refine fun a v s => ⟨fun inside => ⟨_, ?_, storesWord_setMem_set s a.toNat v⟩,
    fun outside => ⟨?_, Memory.write16_outside v outside⟩⟩
  · rw [memWrite16_eq, if_pos inside]
  · rw [memWrite16_eq, if_neg outside]

/-- Settles O8: one round trip per width. -/
theorem memoryRoundTrip : Obligations.MemoryRoundTrip :=
  fun _ _ => ⟨fun v h => Memory.write16_bind_read16 v h, fun b h => Memory.write_bind_read b h⟩

end Sys2Proof.Machine
end

section
/-! PROOFS. The obligation on the opcode map (30_encoding.md R85, R86). -/

namespace Sys2Proof

open Sys2Proof.Machine

/-! ### What the decoder answers for each kind of descriptor -/

/-- A word is the number of its two bytes, low byte first (20_memory.md R57). -/
theorem wordOfBytes_eq_ofNat (lo hi : Byte) :
    wordOfBytes lo hi = BitVec.ofNat 16 (lo.toNat + 256 * hi.toNat) := by
  rw [← wordOfBytes_toNat, BitVec.ofNat_toNat, BitVec.setWidth_eq]

/-- An opcode of format N takes no operand byte (30_encoding.md R80). -/
theorem decode_of_descriptor_n {op : Byte} {instr : Instr} (h : descriptor op = some (.n instr))
    (rest : List Byte) : decode (op :: rest) = .ok (instr, rest) := by
  simp only [decode, h]

/-- An opcode of format I takes the next byte (30_encoding.md R80). -/
theorem decode_of_descriptor_i {op : Byte} {instr : Byte → Instr}
    (h : descriptor op = some (.i instr)) (imm : Byte) (rest : List Byte) :
    decode (op :: imm :: rest) = .ok (instr imm, rest) := by
  simp only [decode, h]

/-- An opcode of format A takes the next two bytes (30_encoding.md R80, R83). -/
theorem decode_of_descriptor_a {op : Byte} {instr : Word → Instr}
    (h : descriptor op = some (.a instr)) (lo hi : Byte) (rest : List Byte) :
    decode (op :: lo :: hi :: rest) = .ok (instr (wordOfBytes lo hi), rest) := by
  simp only [decode, h]

/-- An opcode outside the map is refused before any operand byte is read (30_encoding.md R86). -/
theorem decode_of_descriptor_none {op : Byte} (h : descriptor op = none) (rest : List Byte) :
    decode (op :: rest) = .error (.unknownOpcode op) := by
  simp only [decode, h]

/-- The opcode map has no row for an undefined byte: each of its 27 keys lies outside the four
ranges (30_encoding.md R85, R86). -/
theorem descriptor_of_undefinedOpcode {op : Byte} (undefined : UndefinedOpcode op) :
    descriptor op = none := by
  unfold descriptor
  split
  case h_28 => rfl
  all_goals exact absurd undefined (by decide)

/-! ### The obligation -/

/-- Settles O1: each listed row is looked up in the map, and the decoder's lemma for that row's
format does the rest. -/
theorem opcodeMapRows : Obligations.OpcodeMapRows := by
  refine ⟨fun lo hi rest row listed => ?formatA, fun imm rest => ?formatI,
    fun rest row listed => ?formatN, fun op rest undefined => ?undefined⟩
  case formatA =>
    have found : descriptor row.1 = some (.a row.2) := by fin_cases listed <;> rfl
    rw [decode_of_descriptor_a found, wordOfBytes_eq_ofNat]
  case formatI => exact decode_of_descriptor_i rfl imm rest
  case formatN =>
    have found : descriptor row.1 = some (.n row.2) := by fin_cases listed <;> rfl
    exact decode_of_descriptor_n found rest
  case undefined => exact decode_of_descriptor_none (descriptor_of_undefinedOpcode undefined) rest

end Sys2Proof
end

section
/-! PROOFS. The obligations on load, store and load-immediate (41_load_store.md). -/

namespace Sys2Proof.Machine

/-! ### A step that fetches an opcode of format I or A -/

/-- A defined opcode in memory is dispatched to its operand fetch, `pc` one byte on
(40_fetch_step.md R102, R103). -/
theorem fetchInstr_of_fetches {s : State} {op : Byte} {d : Descriptor} (fetched : s.fetches op)
    (row : descriptor op = some d) : fetchInstr s = fetchOperands d (s.setPc (s.pc + 1)) := by
  obtain ⟨-, inside, rfl⟩ := fetched
  rw [fetchInstr_eq, if_pos inside, row]

/-- A step whose fetch succeeds executes what was fetched (40_fetch_step.md R103). -/
theorem step_of_fetchInstr_ok {s s' : State} {i : Instr} (running : s.running)
    (fetched : fetchInstr s = .ok i s') : step s = exec i s' := by
  rw [step_running running, fetched]

/-- A step whose fetch fails enters that error (40_fetch_step.md R103). -/
theorem step_of_fetchInstr_raise {s s' : State} {e : Fault} (running : s.running)
    (fetched : fetchInstr s = .raise e s') : step s = .next (errorEntry e s') := by
  rw [step_running running, fetched]

/-- The fetch of a format I instruction: the immediate byte follows the opcode
(30_encoding.md R82). -/
theorem fetchInstr_of_fetches_i {s : State} {op : Byte} {mk : Byte → Instr}
    (fetched : s.fetches op) (row : descriptor op = some (.i mk)) :
    fetchInstr s =
      if s.inMem (s.pc + 1).toNat then
        .ok (mk (s.mem.get (s.pc + 1).toNat)) (s.setPc (s.pc + 2))
      else .raise .outOfBounds (s.setPc (s.pc + 1)) := by
  rw [fetchInstr_of_fetches fetched row]
  simp only [fetchOperands, fetch8_eq, State.inMem, State.setPc_pc, State.setPc_mem,
    Word.add_one_add_one]
  split <;> rfl

/-- The fetch of a format A instruction: the low and the high address byte follow the opcode, each
checked at its own wrapped `pc` (30_encoding.md R83, 40_fetch_step.md R101). -/
theorem fetchInstr_of_fetches_a {s : State} {op : Byte} {mk : Word → Instr}
    (fetched : s.fetches op) (row : descriptor op = some (.a mk)) :
    fetchInstr s =
      if s.inMem (s.pc + 1).toNat then
        if s.inMem (s.pc + 2).toNat then
          .ok (mk (wordOfBytes (s.mem.get (s.pc + 1).toNat) (s.mem.get (s.pc + 2).toNat)))
            (s.setPc (s.pc + 3))
        else .raise .outOfBounds (s.setPc (s.pc + 2))
      else .raise .outOfBounds (s.setPc (s.pc + 1)) := by
  rw [fetchInstr_of_fetches fetched row]
  simp only [fetchOperands, fetch16_eq, State.inMem, State.setPc_pc, State.setPc_mem,
    Word.add_one_add_one, Word.add_one_add_two]
  split
  · split <;> rfl
  · rfl

/-- An opcode that the map gives format I steps as that format says (30_encoding.md R82). -/
theorem stepsFormatI_of_descriptor {op : Byte} {mk : Byte → Instr}
    (row : descriptor op = some (.i mk)) : StepsFormatI op mk := by
  intro s fetched
  have fetch := fetchInstr_of_fetches_i fetched row
  obtain ⟨running, -, -⟩ := fetched
  refine ⟨fun inside => ?executed, fun outside => ?immediateOutside⟩
  case executed =>
    rw [if_pos inside] at fetch
    exact step_of_fetchInstr_ok running fetch
  case immediateOutside =>
    rw [if_neg outside] at fetch
    exact step_of_fetchInstr_raise running fetch

/-- An opcode that the map gives format A steps as that format says (30_encoding.md R83). -/
theorem stepsFormatA_of_descriptor {op : Byte} {mk : Word → Instr}
    (row : descriptor op = some (.a mk)) : StepsFormatA op mk := by
  intro s fetched
  have fetch := fetchInstr_of_fetches_a fetched row
  obtain ⟨running, -, -⟩ := fetched
  refine ⟨fun low high => ?executed, fun lowOutside => ?lowOutside,
    fun low highOutside => ?highOutside⟩
  case executed =>
    rw [if_pos low, if_pos high, wordOfBytes_eq_ofNat] at fetch
    exact step_of_fetchInstr_ok running fetch
  case lowOutside =>
    rw [if_neg lowOutside] at fetch
    exact step_of_fetchInstr_raise running fetch
  case highOutside =>
    rw [if_pos low, if_neg highOutside] at fetch
    exact step_of_fetchInstr_raise running fetch

/-! ### The end of an instruction with a memory operand -/

/-- A memory operand inside memory: `acc` alone takes the result (41_load_store.md R120). -/
theorem finish_accFromMemory_inside (f : Byte → Byte → Byte) {addr : Word} {s : State}
    (inside : s.inMem addr.toNat) :
    finish (accFromMemory f addr s) =
      .next { s with acc := f s.acc (s.mem.get addr.toNat) } := by
  rw [accFromMemory_eq, if_pos inside]
  rfl

/-- A memory operand outside memory: the error is entered, `acc` stays (41_load_store.md R120). -/
theorem finish_accFromMemory_outside (f : Byte → Byte → Byte) {addr : Word} {s : State}
    (outside : ¬ s.inMem addr.toNat) :
    finish (accFromMemory f addr s) = .next (errorEntry .outOfBounds s) := by
  rw [accFromMemory_eq, if_neg outside, finish_raise]

/-! ### The three meanings -/

theorem exec_load (addr : Word) (s : State) :
    exec (.load addr) s = finish (accFromMemory (fun _ v => v) addr s) := rfl

theorem exec_store (addr : Word) (s : State) :
    exec (.store addr) s = finish (memWrite addr s.acc s) := rfl

theorem exec_lda (imm : Byte) (s : State) :
    exec (.lda imm) s = .next { s with acc := imm } := rfl

/-! ### The obligations -/

/-- Settles O24: format A by its row of the map, the meaning by the two sides of the bound of a
memory operand. -/
theorem loadInstruction : Obligations.LoadInstruction := by
  refine ⟨stepsFormatA_of_descriptor rfl, fun addr s => ⟨fun inside => ?_, fun outside => ?_⟩⟩
  · rw [exec_load, finish_accFromMemory_inside _ inside]
  · rw [exec_load, finish_accFromMemory_outside _ outside]

/-- Settles O25: format A by its row of the map, the meaning and its frame by the contract of the
byte write. -/
theorem storeInstruction : Obligations.StoreInstruction := by
  refine ⟨stepsFormatA_of_descriptor rfl, fun addr s => ?_⟩
  obtain ⟨stores, refuses⟩ := byteWriteContract addr s.acc s
  refine ⟨fun inside => ?_, fun outside => ?_⟩
  · obtain ⟨t, written, frame⟩ := stores inside
    exact ⟨t, by rw [exec_store, written, finish_ok], frame⟩
  · obtain ⟨refused, -⟩ := refuses outside
    rw [exec_store, refused, finish_raise]

/-- Settles O26: format I by its row of the map; the immediate is loaded with no access that could
fail. -/
theorem ldaInstruction : Obligations.LdaInstruction :=
  ⟨stepsFormatI_of_descriptor rfl, exec_lda⟩

end Sys2Proof.Machine
end

section
/-! PROOFS. The obligations on the ALU and register instructions (42_alu.md R130 to R138). -/

namespace Sys2Proof.Machine

/-! ### The ALU's results as numbers and as bits -/

theorem aluAdd_toNat (a b : Byte) : (aluAdd a b).toNat = (a.toNat + b.toNat) % 256 :=
  BitVec.toNat_add a b

/-- The borrow is dropped: the residue of the integer difference, never negative
(42_alu.md R131, R141). -/
theorem aluSub_toNat (a b : Byte) :
    ((aluSub a b).toNat : Int) = ((a.toNat : Int) - b.toNat) % 256 := by
  have difference : (aluSub a b).toNat = (256 - b.toNat + a.toNat) % 256 := BitVec.toNat_sub a b
  have byte : b.toNat < 256 := b.isLt
  omega

theorem aluMul_toNat (a b : Byte) : (aluMul a b).toNat = (a.toNat * b.toNat) % 256 :=
  BitVec.toNat_mul a b

theorem aluAnd_getLsbD (a b : Byte) (k : Nat) :
    (aluAnd a b).getLsbD k = (a.getLsbD k && b.getLsbD k) := BitVec.getLsbD_and

theorem aluOr_getLsbD (a b : Byte) (k : Nat) :
    (aluOr a b).getLsbD k = (a.getLsbD k || b.getLsbD k) := BitVec.getLsbD_or

theorem aluXor_getLsbD (a b : Byte) (k : Nat) :
    (aluXor a b).getLsbD k = (a.getLsbD k != b.getLsbD k) := BitVec.getLsbD_xor

/-! ### A step that fetches an opcode of format N -/

/-- An opcode that the map gives format N steps as that format says: no operand byte is fetched
(30_encoding.md R81). -/
theorem stepsFormatN_of_descriptor {op : Byte} {instr : Instr}
    (row : descriptor op = some (.n instr)) : StepsFormatN op instr := by
  intro s fetched
  have fetch : fetchInstr s = .ok instr (s.setPc (s.pc + 1)) := fetchInstr_of_fetches fetched row
  obtain ⟨running, -, -⟩ := fetched
  exact step_of_fetchInstr_ok running fetch

/-! ### The eight meanings -/

theorem exec_add (addr : Word) (s : State) :
    exec (.add addr) s = finish (accFromMemory aluAdd addr s) := rfl

theorem exec_sub (addr : Word) (s : State) :
    exec (.sub addr) s = finish (accFromMemory aluSub addr s) := rfl

theorem exec_and (addr : Word) (s : State) :
    exec (.and addr) s = finish (accFromMemory aluAnd addr s) := rfl

theorem exec_or (addr : Word) (s : State) :
    exec (.or addr) s = finish (accFromMemory aluOr addr s) := rfl

theorem exec_xor (addr : Word) (s : State) :
    exec (.xor addr) s = finish (accFromMemory aluXor addr s) := rfl

theorem exec_inc (s : State) : exec .inc s = .next { s with acc := aluAdd s.acc 1 } := rfl

theorem exec_dec (s : State) : exec .dec s = .next { s with acc := aluSub s.acc 1 } := rfl

theorem exec_mov (s : State) : exec .mov s = .next { s with regB := s.regA } := rfl

theorem exec_mul (s : State) : exec .mul s = .next { s with acc := aluMul s.regA s.regB } := rfl

/-! ### The obligations -/

/-- Settles O27: format A by the two rows of the map, the meanings by the two sides of the bound of
a memory operand, the numbers by the ALU's sum and difference. -/
theorem addSubInstructions : Obligations.AddSubInstructions := by
  refine ⟨stepsFormatA_of_descriptor rfl, stepsFormatA_of_descriptor rfl,
    fun addr s => ⟨fun inside => ?inside, fun outside => ?outside⟩⟩
  case inside =>
    rw [exec_add, exec_sub, finish_accFromMemory_inside _ inside,
      finish_accFromMemory_inside _ inside]
    exact ⟨⟨_, rfl, aluAdd_toNat _ _⟩, ⟨_, rfl, aluSub_toNat _ _⟩⟩
  case outside =>
    rw [exec_add, exec_sub]
    exact ⟨finish_accFromMemory_outside _ outside, finish_accFromMemory_outside _ outside⟩

/-- Settles O28: as for ADD and SUB, with the ALU's results read bit by bit. -/
theorem andOrXorInstructions : Obligations.AndOrXorInstructions := by
  refine ⟨stepsFormatA_of_descriptor rfl, stepsFormatA_of_descriptor rfl,
    stepsFormatA_of_descriptor rfl, fun addr s => ⟨fun inside => ?inside, fun outside => ?outside⟩⟩
  case inside =>
    rw [exec_and, exec_or, exec_xor, finish_accFromMemory_inside _ inside,
      finish_accFromMemory_inside _ inside, finish_accFromMemory_inside _ inside]
    exact ⟨⟨_, rfl, aluAnd_getLsbD _ _⟩, ⟨_, rfl, aluOr_getLsbD _ _⟩,
      ⟨_, rfl, aluXor_getLsbD _ _⟩⟩
  case outside =>
    rw [exec_and, exec_or, exec_xor]
    exact ⟨finish_accFromMemory_outside _ outside, finish_accFromMemory_outside _ outside,
      finish_accFromMemory_outside _ outside⟩

/-- Settles O29: format N by the two rows of the map; the ALU's sum and difference with the
constant 1. -/
theorem incDecInstructions : Obligations.IncDecInstructions :=
  ⟨stepsFormatN_of_descriptor rfl, stepsFormatN_of_descriptor rfl, fun s =>
    ⟨⟨_, exec_inc s, aluAdd_toNat s.acc 1⟩, ⟨_, exec_dec s, aluSub_toNat s.acc 1⟩⟩⟩

/-- Settles O30: format N by its row of the map; the copy reads `reg_a` and no other register. -/
theorem movInstruction : Obligations.MovInstruction :=
  ⟨stepsFormatN_of_descriptor rfl, exec_mov⟩

/-- Settles O31: format N by its row of the map; the low byte of the ALU's product. -/
theorem mulInstruction : Obligations.MulInstruction :=
  ⟨stepsFormatN_of_descriptor rfl, fun s => ⟨_, exec_mul s, aluMul_toNat s.regA s.regB⟩⟩

end Sys2Proof.Machine
end

section
/-! PROOFS. The obligation on the unconditional jump (43_control.md R150). -/

namespace Sys2Proof.Machine

/-- JMP writes `pc` with no access that could fail, so its end is the `ok` of `finish`
(43_control.md R150, R157). -/
theorem exec_jmp (addr : Word) (s : State) : exec (.jmp addr) s = .next { s with pc := addr } :=
  calc exec (.jmp addr) s
    _ = finish (.ok () (s.setPc addr)) := rfl
    _ = .next { s with pc := addr } := finish_ok ..

/-- Settles O34: format A by its row of the map; the target is loaded unchecked. -/
theorem jmpInstruction : Obligations.JmpInstruction :=
  ⟨stepsFormatA_of_descriptor rfl, exec_jmp⟩

end Sys2Proof.Machine
end

section
/-! PROOFS. The obligation on HALT (45_system.md R178). -/

namespace Sys2Proof.Machine

/-- The run loop tests `halted` before it spends fuel: a run from a halted state ends in it at once
(40_fetch_step.md R104, R106). -/
theorem run_halted {s : State} (halted : s.halted = true) (fuel : Nat) : run fuel s = some s := by
  rw [run.eq_def, if_pos halted]

/-- HALT writes `halted` with no access that could fail, so its end is the `ok` of `finish`, and
`err` is not written (45_system.md R178). -/
theorem exec_halt (s : State) : exec .halt s = .next { s with halted := true } :=
  calc exec .halt s
    _ = finish (.ok () (s.setHalted true)) := rfl
    _ = .next { s with halted := true } := finish_ok ..

/-- Settles O46: format N by its row of the map, the next state by `exec_halt`; that state is
halted, so every run from it ends in it. -/
theorem haltInstruction : Obligations.HaltInstruction :=
  ⟨stepsFormatN_of_descriptor rfl, fun s => ⟨_, exec_halt s, rfl, run_halted rfl⟩⟩

end Sys2Proof.Machine
end

section
/-! PROOFS. The obligations on the decoder and the encoder (30_encoding.md sections 1 to 3). -/

namespace Sys2Proof

/-! ### The bytes of an instruction, read off the opcode map -/

/-- `bytes` are the opcode and the operand bytes of `i`, as the row of the opcode map for that
opcode has them (30_encoding.md R80 to R85). -/
inductive EncodedBy : Instr → List Byte → Prop where
  | n {op : Byte} {instr : Instr} (row : descriptor op = some (.n instr)) : EncodedBy instr [op]
  | i {op : Byte} {mk : Byte → Instr} (row : descriptor op = some (.i mk)) (imm : Byte) :
      EncodedBy (mk imm) [op, imm]
  | a {op : Byte} {mk : Word → Instr} (row : descriptor op = some (.a mk)) (lo hi : Byte) :
      EncodedBy (mk (wordOfBytes lo hi)) [op, lo, hi]

/-- The encoder of a descriptor with its opcode: what `encode` has to give for each row. -/
def Descriptor.Encodes (op : Byte) : Descriptor → Prop
  | .n instr => encode instr = [op]
  | .i mk => ∀ imm, encode (mk imm) = [op, imm]
  | .a mk => ∀ addr, encode (mk addr) = encodeA op addr

/-- Every row of the opcode map agrees with the encoder (30_encoding.md R85). -/
theorem encodes_of_descriptor {op : Byte} {d : Descriptor} (row : descriptor op = some d) :
    d.Encodes op := by
  unfold descriptor at row
  split at row
  case h_28 => cases row
  all_goals cases row; simp only [Descriptor.Encodes]; intros; rfl

/-- The opcode map leaves one encoding to an instruction: the encoder's. -/
theorem EncodedBy.eq_encode {i : Instr} {bytes : List Byte} (h : EncodedBy i bytes) :
    bytes = encode i := by
  cases h with
  | n row => exact (encodes_of_descriptor row).symm
  | i row imm => exact (encodes_of_descriptor row imm).symm
  | a row lo hi =>
    rw [show encode _ = encodeA _ _ from encodes_of_descriptor row (wordOfBytes lo hi), encodeA,
      lowByte_wordOfBytes, highByte_wordOfBytes]

/-- The bytes of a format A instruction, whose opcode the map holds. -/
theorem encodedBy_encodeA {op : Byte} {mk : Word → Instr} (row : descriptor op = some (.a mk))
    (addr : Word) : EncodedBy (mk addr) (encodeA op addr) := by
  have h := EncodedBy.a row (lowByte addr) (highByte addr)
  rwa [wordOfBytes_bytes] at h

/-- The encoder's bytes begin with an opcode the map gives that instruction. -/
theorem encodedBy_encode (i : Instr) : EncodedBy i (encode i) := by
  cases i with
  | load a | store a | add a | sub a | and a | or a | xor a | jmp a | jz a | jnz a | call a
  | jp a | jn a | int a => exact encodedBy_encodeA rfl a
  | lda imm => exact .i rfl imm
  | inc | dec | mov | mul | div | cmp | ret | cli | sei | push | pop | halt => exact .n rfl

theorem encodedBy_iff {i : Instr} {bytes : List Byte} : EncodedBy i bytes ↔ bytes = encode i :=
  ⟨EncodedBy.eq_encode, fun h => h ▸ encodedBy_encode i⟩

/-! ### What a string that decodes looks like -/

/-- The decoder reads exactly the bytes of one instruction from the front of the string. -/
theorem EncodedBy.decode_append {i : Instr} {bytes : List Byte} (h : EncodedBy i bytes)
    (rest : List Byte) : decode (bytes ++ rest) = .ok (i, rest) := by
  cases h with
  | n row => exact decode_of_descriptor_n row rest
  | i row imm => exact decode_of_descriptor_i row imm rest
  | a row lo hi => exact decode_of_descriptor_a row lo hi rest

/-- A string that decodes begins with the bytes of the instruction. -/
theorem encodedBy_of_decode {bytes rest : List Byte} {i : Instr}
    (h : decode bytes = .ok (i, rest)) : ∃ front, EncodedBy i front ∧ bytes = front ++ rest := by
  cases bytes with
  | nil => cases h
  | cons op operands =>
    simp only [decode] at h
    split at h
    case h_2 row => cases h; exact ⟨[op], .n row, rfl⟩
    case h_3 imm _ row => cases h; exact ⟨[op, imm], .i row imm, rfl⟩
    case h_4 lo hi _ row => cases h; exact ⟨[op, lo, hi], .a row lo hi, rfl⟩
    all_goals cases h

/-! ### Strings of exactly one instruction -/

/-- The three checks together: the map holds the opcode, and the string has its length
(30_encoding.md R80, R84, R85). -/
theorem wellFormedBytes_cons_iff (op : Byte) (operands : List Byte) :
    wellFormedBytes (op :: operands) = true ↔
      ∃ d, descriptor op = some d ∧ operands.length + 1 = d.format.length := by
  cases row : descriptor op <;>
    simp [wellFormedBytes, hasOpcode, opcodeDefined, lengthExact, row]

/-- A string has the length of its opcode's format exactly when it is that opcode with one
operand. -/
theorem wellFormedBytes_iff_encodedBy (bytes : List Byte) :
    wellFormedBytes bytes = true ↔ ∃ i, EncodedBy i bytes := by
  cases bytes with
  | nil => exact ⟨nofun, by rintro ⟨_, ⟨⟩⟩⟩
  | cons op operands =>
    rw [wellFormedBytes_cons_iff]
    constructor
    · rintro ⟨d, row, len⟩
      cases d with
      | n instr =>
        obtain rfl : operands = [] := List.length_eq_zero_iff.mp (Nat.succ.inj len)
        exact ⟨_, .n row⟩
      | i mk =>
        obtain ⟨imm, rfl⟩ := List.length_eq_one_iff.mp (Nat.succ.inj len)
        exact ⟨_, .i row imm⟩
      | a mk =>
        obtain ⟨lo, hi, rfl⟩ := List.length_eq_two.mp (Nat.succ.inj len)
        exact ⟨_, .a row lo hi⟩
    · rintro ⟨i, h⟩
      cases h with
      | n row | i row _ | a row _ _ => exact ⟨_, row, rfl⟩

/-! ### The obligations -/

/-- Settles O2: both directions through `EncodedBy`, the encoding as the opcode map has it. -/
theorem decodeIffEncode : Obligations.DecodeIffEncode := by
  refine fun bytes i rest => ⟨fun decoded => ?_, fun begins => ?_⟩
  · obtain ⟨front, encoded, rfl⟩ := encodedBy_of_decode decoded
    rw [encoded.eq_encode]
  · rw [begins, (encodedBy_encode i).decode_append]

/-- Settles O3: well-formed strings are those of `EncodedBy`, the ones that decode with nothing left
over. -/
theorem wellFormedBytesDecode : Obligations.WellFormedBytesDecode := by
  refine ⟨fun i => (wellFormedBytes_iff_encodedBy _).mpr ⟨i, encodedBy_encode i⟩, fun bytes => ?_⟩
  rw [wellFormedBytes_iff_encodedBy]
  refine exists_congr fun i => ?_
  rw [encodedBy_iff, decodeIffEncode, List.append_nil]

/-- Settles O4: each listed string is the encoding of its instruction, and `00` is in no row of the
map. -/
theorem decodeOfListedWords : Obligations.DecodeOfListedWords :=
  ⟨(decodeIffEncode _ _ _).mpr rfl, (decodeIffEncode _ _ _).mpr rfl,
    (decodeIffEncode _ _ _).mpr rfl, (decodeIffEncode _ _ _).mpr rfl,
    (decodeIffEncode _ _ _).mpr rfl, (decodeIffEncode _ _ _).mpr rfl,
    (decodeIffEncode _ _ _).mpr rfl, decode_of_descriptor_none rfl []⟩

end Sys2Proof
end

section
/-! PROOFS. The remaining obligations on memory: accesses of mixed width (20_memory.md R57), the
word access at the top (section 1), and the canonical form of the array. -/

namespace Sys2Proof.Machine

/-! ### Accesses of mixed width -/

/-- The low byte of a word, as a number (20_memory.md R57). -/
theorem lowByte_eq_ofNat (v : Word) : lowByte v = BitVec.ofNat 8 (v.toNat % 256) := by
  rw [← lowByte_toNat, BitVec.ofNat_toNat, BitVec.setWidth_eq]

/-- The high byte of a word, as a number (20_memory.md R57). -/
theorem highByte_eq_ofNat (v : Word) : highByte v = BitVec.ofNat 8 (v.toNat / 256) := by
  rw [← highByte_toNat, BitVec.ofNat_toNat, BitVec.setWidth_eq]

/-- Byte reads after a word write: the low byte at the address (20_memory.md R55, R57). -/
theorem Memory.write16_bind_read_low {m : Memory} {a : Nat} (v : Word) (h : a + 1 < m.size.val) :
    (m.write16 a v).bind (·.read a) = some (lowByte v) := by
  simp [h, Nat.lt_of_succ_lt h]

/-- Byte reads after a word write: the high byte one above (20_memory.md R55, R57). -/
theorem Memory.write16_bind_read_high {m : Memory} {a : Nat} (v : Word)
    (h : a + 1 < m.size.val) :
    (m.write16 a v).bind (·.read (a + 1)) = some (highByte v) := by
  simp [h]

/-- The word read after two byte writes is the word of the two bytes (20_memory.md R54, R57). -/
theorem Memory.write_write_bind_read16 {m : Memory} {a : Nat} (lo hi : Byte)
    (h : a + 1 < m.size.val) :
    ((m.write a lo).bind (·.write (a + 1) hi)).bind (·.read16 a) = some (wordOfBytes lo hi) := by
  simp [h, Nat.lt_of_succ_lt h]

/-! ### The canonical form -/

/-- The condition of `Memory.wf` on the bytes of the list: none is what an unlisted address
reads as. -/
abbrev AllListed (cs : List Host.Cell) : Prop := ∀ c ∈ cs, c.2 ≠ Memory.unlisted

/-- An address below every listed one reads as unlisted. -/
theorem lookupCell_of_below {a : Nat} {cs : List Host.Cell} (h : ∀ c ∈ cs, a < c.1) :
    lookupCell a cs = Memory.unlisted := by
  induction cs with
  | nil => rfl
  | cons c cs ih =>
    obtain ⟨b, v⟩ := c
    have hb : a ≠ b := (h (b, v) List.mem_cons_self).ne
    simpa [lookupCell, hb] using ih fun c hc => h c (List.mem_cons_of_mem _ hc)

/-- Two lists of cells that read alike begin at the same address: the lower of two first addresses
would be listed in one list and unlisted in the other. -/
theorem head_address_le {a b : Nat} {v w : Byte} {cs ds : List Host.Cell} (hv : v ≠ Memory.unlisted)
    (hd : Rising ((b, w) :: ds))
    (same : ∀ x, lookupCell x ((a, v) :: cs) = lookupCell x ((b, w) :: ds)) : b ≤ a := by
  by_contra below
  have unlisted : lookupCell a ((b, w) :: ds) = Memory.unlisted := by
    refine lookupCell_of_below fun c hc => ?_
    obtain ⟨first, -⟩ := List.pairwise_cons.mp hd
    rcases List.mem_cons.mp hc with rfl | hc
    · exact not_le.mp below
    · exact (not_le.mp below).trans (first c hc)
  exact hv (by rw [← unlisted, ← same a]; simp [lookupCell])

/-- Lists of cells in canonical form are determined by what they read as. -/
theorem cells_eq_of_lookupCell_eq {cs ds : List Host.Cell} (hc : Rising cs) (hd : Rising ds)
    (lc : AllListed cs) (ld : AllListed ds) (same : ∀ a, lookupCell a cs = lookupCell a ds) :
    cs = ds := by
  induction cs generalizing ds with
  | nil =>
    cases ds with
    | nil => rfl
    | cons d ds =>
      have listed := ld d List.mem_cons_self
      exact absurd (by simpa [lookupCell] using (same d.1).symm) listed
  | cons c cs ih =>
    cases ds with
    | nil =>
      have listed := lc c List.mem_cons_self
      exact absurd (by simpa [lookupCell] using same c.1) listed
    | cons d ds =>
      obtain ⟨a, v⟩ := c
      obtain ⟨b, w⟩ := d
      obtain rfl : a = b := le_antisymm
        (head_address_le (ld (b, w) List.mem_cons_self) hc fun x => (same x).symm)
        (head_address_le (lc (a, v) List.mem_cons_self) hd same)
      obtain rfl : v = w := by simpa [lookupCell] using same a
      obtain ⟨aboveC, hc⟩ := List.pairwise_cons.mp hc
      obtain ⟨aboveD, hd⟩ := List.pairwise_cons.mp hd
      refine congrArg _ (ih hc hd (fun c h => lc c (List.mem_cons_of_mem _ h))
        (fun d h => ld d (List.mem_cons_of_mem _ h)) fun x => ?_)
      by_cases hx : x = a
      · subst hx
        rw [lookupCell_of_below aboveC, lookupCell_of_below aboveD]
      · simpa [lookupCell, hx] using same x

/-! ### The obligations -/

/-- Settles O9: one lemma per pair of widths, and the bytes as numbers. -/
theorem mixedWidthBytes : Obligations.MixedWidthBytes := by
  refine fun m a inside => ⟨fun v => ⟨?_, ?_⟩, fun lo hi => ?_⟩
  · rw [← lowByte_eq_ofNat, Memory.write16_bind_read_low v inside]
  · rw [← highByte_eq_ofNat, Memory.write16_bind_read_high v inside]
  · rw [← wordOfBytes_eq_ofNat, Memory.write_write_bind_read16 lo hi inside]

/-- The byte above 0xFFFF exists for no `MEM_SIZE` (20_memory.md section 1, D16). -/
theorem Memory.not_above_top (m : Memory) : ¬ 0xFFFF + 1 < m.size.val := by
  have := m.size.isLt
  omega

/-- Settles O10: the second byte would be at 65536, outside every array. -/
theorem wordAccessAtTopFails : Obligations.WordAccessAtTopFails :=
  fun m v => ⟨Memory.read16_outside m.not_above_top, Memory.write16_outside v m.not_above_top⟩

/-- Settles O11: by induction on the two lists of cells, whose first addresses agree. -/
theorem equalReadsEqualMemory : Obligations.EqualReadsEqualMemory := by
  rintro ⟨size, cs⟩ ⟨size', ds⟩ ⟨hc, lc⟩ ⟨hd, ld⟩ rfl same
  obtain rfl : cs = ds :=
    cells_eq_of_lookupCell_eq hc hd (fun c h => (lc c h).2) (fun d h => (ld d h).2) same
  rfl

end Sys2Proof.Machine
end

section
/-! PROOFS. The obligations on the fetch (40_fetch_step.md R100 to R103): the byte and word fetches,
the instruction a step fetches, and the errors of the fetch. -/

namespace Sys2Proof.Machine

/-! ### The bytes a step fetches -/

theorem State.codeAddr_zero (s : State) : s.codeAddr 0 = s.pc.toNat := by
  rw [State.codeAddr, BitVec.add_zero]

theorem State.codeBytes_one (s : State) : s.codeBytes 1 = [s.mem.get s.pc.toNat] := by
  rw [← s.codeAddr_zero]
  rfl

theorem State.codeBytes_two (s : State) :
    s.codeBytes 2 = [s.mem.get s.pc.toNat, s.mem.get (s.pc + 1).toNat] := by
  rw [← s.codeAddr_zero]
  rfl

theorem State.codeBytes_three (s : State) :
    s.codeBytes 3 =
      [s.mem.get s.pc.toNat, s.mem.get (s.pc + 1).toNat, s.mem.get (s.pc + 2).toNat] := by
  rw [← s.codeAddr_zero]
  rfl

/-- An instruction has one byte, two or three (30_encoding.md R80). -/
theorem length_bounds (i : Instr) : 0 < i.length ∧ i.length ≤ 3 := by
  unfold Instr.length
  cases i.format <;> decide

theorem encode_length (i : Instr) : (encode i).length = i.length := by
  cases i <;> rfl

/-- The length of an instruction is the number of bytes its row of the opcode map takes
(30_encoding.md R84, R85). -/
theorem length_of_encodedBy {i : Instr} {bytes : List Byte} (h : EncodedBy i bytes) :
    i.length = bytes.length := by
  rw [h.eq_encode, encode_length]

/-- A fetch that gives an instruction read that instruction's bytes, with the opcode inside memory,
and leaves `pc` past them (40_fetch_step.md R102, R108). -/
theorem FetchEffect.executes {s s' : State} {i : Instr} (f : FetchEffect s (.ok i s')) :
    s.inMem s.pc.toNat ∧ encode i = s.codeBytes i.length ∧
      s' = s.setPc (s.pc + BitVec.ofNat 16 i.length) := by
  cases f with
  | n ins row =>
    have bytes := EncodedBy.n row
    rw [length_of_encodedBy bytes, ← bytes.eq_encode]
    exact ⟨ins, s.codeBytes_one.symm, rfl⟩
  | i ins row =>
    have bytes := EncodedBy.i row (s.mem.get (s.pc + 1).toNat)
    rw [length_of_encodedBy bytes, ← bytes.eq_encode]
    exact ⟨ins, s.codeBytes_two.symm, rfl⟩
  | a ins row =>
    have bytes := EncodedBy.a row (s.mem.get (s.pc + 1).toNat) (s.mem.get (s.pc + 2).toNat)
    rw [length_of_encodedBy bytes, ← bytes.eq_encode]
    exact ⟨ins, s.codeBytes_three.symm, rfl⟩

/-- A fetch that fails has moved `pc` alone (40_fetch_step.md R100, R107). -/
theorem FetchEffect.raise_eq_setPc {s s' : State} {e : Fault} (f : FetchEffect s (.raise e s')) :
    ∃ p, s' = s.setPc p := by
  cases f with
  | opcodeOutside => exact ⟨s.pc, rfl⟩
  | unknown | operandOutside => exact ⟨_, rfl⟩

/-! ### The error entry, one equation per error (60_exceptions.md R198) -/

theorem errorEntry_outOfBounds (s : State) :
    errorEntry .outOfBounds s = { s with halted := true, err := 1 } := rfl

theorem errorEntry_unknownInstruction (op : Byte) (p : Word) (s : State) :
    errorEntry (.unknownInstruction op p) s =
      { s with halted := true, err := 2, errOpcode := op, errPc := p } := rfl

/-- The code and the payload name the error again (60_exceptions.md R198). -/
theorem surfacedError_errorEntry (e : Fault) (s : State) :
    (errorEntry e s).surfacedError = some e := by
  cases e <;> rfl

/-! ### A step that fails in its fetch -/

theorem step_opcode_outside {s : State} (running : s.running) (outside : ¬ s.inMem s.pc.toNat) :
    step s = .next (errorEntry .outOfBounds s) :=
  step_of_fetchInstr_raise running (by rw [fetchInstr_eq, if_neg outside])

theorem step_unknown {s : State} (running : s.running) (inside : s.inMem s.pc.toNat)
    (undefined : descriptor (s.mem.get s.pc.toNat) = none) :
    step s = .next
      (errorEntry (.unknownInstruction (s.mem.get s.pc.toNat) s.pc) (s.setPc (s.pc + 1))) :=
  step_of_fetchInstr_raise running (by rw [fetchInstr_eq, if_pos inside, undefined])

/-- An operation with an operand needs the byte after the opcode, whichever of the two formats it
has (30_encoding.md R82, R83). -/
theorem step_first_operand_outside {s : State} {op : Byte} {d : Descriptor}
    (fetched : s.fetches op) (row : descriptor op = some d) (operand : d.format ≠ .n)
    (outside : ¬ s.inMem (s.pc + 1).toNat) :
    step s = .next (errorEntry .outOfBounds { s with pc := s.pc + 1 }) := by
  cases d with
  | n => exact absurd rfl operand
  | i =>
    obtain ⟨-, raises⟩ := stepsFormatI_of_descriptor row s fetched
    exact raises outside
  | a =>
    obtain ⟨-, raises, -⟩ := stepsFormatA_of_descriptor row s fetched
    exact raises outside

theorem step_second_operand_outside {s : State} {op : Byte} {d : Descriptor}
    (fetched : s.fetches op) (row : descriptor op = some d) (address : d.format = .a)
    (inside : s.inMem (s.pc + 1).toNat) (outside : ¬ s.inMem (s.pc + 2).toNat) :
    step s = .next (errorEntry .outOfBounds { s with pc := s.pc + 2 }) := by
  cases d with
  | n | i => cases address
  | a =>
    obtain ⟨-, -, raises⟩ := stepsFormatA_of_descriptor row s fetched
    exact raises inside outside

/-! ### Bytes placed where the next step fetches them -/

theorem placeBytes_cons_inside {p : Word} {m : Memory} (b : Byte) (rest : List Byte)
    (h : p.toNat < m.size.val) :
    placeBytes (b :: rest) p m = placeBytes rest (p + 1) (m.set p.toNat b) := by
  rw [placeBytes, Memory.write_inside b h, Option.getD_some]

/-- The three fetch addresses from `p` differ, also where they wrap (30_encoding.md R89). -/
theorem Word.fetch_addresses_ne (p : Word) :
    p.toNat ≠ (p + 1).toNat ∧ p.toNat ≠ (p + 2).toNat ∧ (p + 1).toNat ≠ (p + 2).toNat := by
  bv_omega

/-- Three bytes placed at `pc`, all inside memory, are the bytes the next step reads there. -/
theorem codeBytes_placeBytes (s : State) (b₀ b₁ b₂ : Byte) (in₀ : s.inMem s.pc.toNat)
    (in₁ : s.inMem (s.pc + 1).toNat) (in₂ : s.inMem (s.pc + 2).toNat) :
    (s.setMem (placeBytes [b₀, b₁, b₂] s.pc s.mem)).codeBytes 3 = [b₀, b₁, b₂] ∧
      (placeBytes [b₀, b₁, b₂] s.pc s.mem).size = s.mem.size := by
  obtain ⟨h01, h02, h12⟩ := Word.fetch_addresses_ne s.pc
  have placed : placeBytes [b₀, b₁, b₂] s.pc s.mem =
      ((s.mem.set s.pc.toNat b₀).set (s.pc + 1).toNat b₁).set (s.pc + 2).toNat b₂ := by
    rw [placeBytes_cons_inside _ _ in₀, placeBytes_cons_inside, Word.add_one_add_one,
      placeBytes_cons_inside, placeBytes]
    · exact in₂
    · exact in₁
  rw [placed, State.codeBytes_three]
  simp only [State.setMem_pc, State.setMem_mem, Memory.get_set_self, Memory.get_set_other _ _ h01,
    Memory.get_set_other _ _ h02, Memory.get_set_other _ _ h12, Memory.set_size, and_self]

/-! ### The obligations -/

/-- Settles O13: the two sides of the bound in `fetch8_eq`; the sum of words wraps. -/
theorem fetchEight : Obligations.FetchEight := by
  refine fun s => ⟨fun inside => ⟨s.setPc (s.pc + 1), ?_, rfl, BitVec.toNat_add s.pc 1⟩,
    fun outside => ?_⟩
  · rw [fetch8_eq, if_pos inside]
  · rw [fetch8_eq, if_neg outside]

/-- Both bytes inside memory: the word of the two (40_fetch_step.md R101). -/
theorem fetch16_inside {s : State} (low : s.inMem s.pc.toNat) (high : s.inMem (s.pc + 1).toNat) :
    fetch16 s =
      .ok (BitVec.ofNat 16
          ((s.mem.get s.pc.toNat).toNat + 256 * (s.mem.get (s.pc + 1).toNat).toNat))
        { s with pc := s.pc + 2 } := by
  rw [fetch16_eq, if_pos low, if_pos high, wordOfBytes_eq_ofNat]
  rfl

/-- Settles O12: the three cases of `fetch16_eq`; with 65536 bytes every word is an address, so at
0xFFFF the first case holds, where no word read succeeds. -/
theorem fetchSixteen : Obligations.FetchSixteen := by
  refine fun s => ⟨fetch16_inside, fun outside => ?_, fun low highOutside => ?_,
    fun full top => ⟨?_, Memory.read16_outside s.mem.not_above_top⟩⟩
  · rw [fetch16_eq, if_neg outside]
  · rw [fetch16_eq, if_pos low, if_neg highOutside]
    rfl
  · have every (a : Word) : s.inMem a.toNat := a.isLt.trans_eq full.symm
    rw [fetch16_inside (every _) (every _), top]
    rfl

/-- Settles O14: the decoded bytes are those of a row of the opcode map, which steps as its format
says. -/
theorem stepRunsDecodedInstruction : Obligations.StepRunsDecodedInstruction := by
  intro s i rest running decoded inside
  obtain ⟨front, bytes, split⟩ := encodedBy_of_decode decoded
  obtain ⟨positive, -⟩ := length_bounds i
  rw [State.codeBytes_three] at split
  rw [length_of_encodedBy bytes] at inside positive ⊢
  have opcodeInside : s.inMem s.pc.toNat := s.codeAddr_zero ▸ inside 0 positive
  cases bytes with
  | n row =>
    simp only [List.cons_append, List.cons.injEq] at split
    obtain ⟨rfl, -⟩ := split
    exact stepsFormatN_of_descriptor row s ⟨running, opcodeInside, rfl⟩
  | i row imm =>
    simp only [List.cons_append, List.cons.injEq] at split
    obtain ⟨rfl, rfl, -⟩ := split
    obtain ⟨executes, -⟩ := stepsFormatI_of_descriptor row s ⟨running, opcodeInside, rfl⟩
    exact executes (inside 1 (by simp))
  | a row lo hi =>
    simp only [List.cons_append, List.cons.injEq] at split
    obtain ⟨rfl, rfl, rfl, -⟩ := split
    obtain ⟨executes, -⟩ := stepsFormatA_of_descriptor row s ⟨running, opcodeInside, rfl⟩
    rw [wordOfBytes_eq_ofNat]
    exact executes (inside 1 (by simp)) (inside 2 (by simp))

/-- Settles O15: one lemma per failing fetch, and the entry of its error. -/
theorem stepFetchErrors : Obligations.StepFetchErrors := by
  refine fun s running => ⟨fun outside => ?_, fun inside undefined => ?_,
    fun d inside row operand outside => ?_, fun d inside row address low outside => ?_⟩
  · rw [step_opcode_outside running outside, errorEntry_outOfBounds]
  · rw [step_unknown running inside (descriptor_of_undefinedOpcode undefined),
      errorEntry_unknownInstruction]
    rfl
  · rw [step_first_operand_outside ⟨running, inside, rfl⟩ row operand outside,
      errorEntry_outOfBounds]
  · rw [step_second_operand_outside ⟨running, inside, rfl⟩ row address low outside,
      errorEntry_outOfBounds]

/-- Settles O19: the entry by its definition, one equation per error. -/
theorem errorEntryWrites : Obligations.ErrorEntryWrites := fun s =>
  ⟨errorEntry_outOfBounds s, fun op p => errorEntry_unknownInstruction op p s, rfl, rfl, rfl,
    fun e => surfacedError_errorEntry e s⟩

/-- Settles O22: the placed bytes are those the step reads, so the step runs what they decode
to. -/
theorem placedWordRunsNext : Obligations.PlacedWordRunsNext := by
  intro s nbits w i decodes in₀ in₁ in₂
  obtain ⟨rest, decoded⟩ : ∃ rest, decode (tableBytes nbits w) = .ok (i, rest) := by
    unfold decodeTableWord at decodes
    split at decodes
    next rest decoded => cases decodes; exact ⟨rest, decoded⟩
    next => cases decodes
  obtain ⟨bytes, size⟩ := codeBytes_placeBytes (s.setHalted false) (BitVec.ofNat 8 _)
    (BitVec.ofNat 8 _) (BitVec.ofNat 8 _) in₀ in₁ in₂
  refine stepRunsDecodedInstruction (s.withFetchWord nbits w) i rest rfl ?_ fun k short => ?_
  · exact bytes.symm ▸ decoded
  · obtain ⟨-, three⟩ := length_bounds i
    have kept {a : Nat} (h : s.inMem a) : (s.withFetchWord nbits w).inMem a :=
      h.trans_eq (congrArg Fin.val size).symm
    obtain rfl | rfl | rfl : k = 0 ∨ k = 1 ∨ k = 2 := by omega
    · exact kept ((State.codeAddr_zero _).symm ▸ in₀)
    · exact kept in₁
    · exact kept in₂

end Sys2Proof.Machine
end

section
/-! PROOFS. What a step does to memory and to the run state, said once each, and the obligations on
the run loop (40_fetch_step.md sections 3 and 4). -/

namespace Sys2Proof.Machine

/-! ### Memory after an instruction -/

/-- What an instruction, executed in `s`, can make of memory: only five instructions write it, each
at its own address. -/
inductive MemEffect (s : State) : Instr → Memory → Prop where
  | unchanged {i : Instr} : MemEffect s i s.mem
  | store {a : Word} (ins : s.inMem a.toNat) : MemEffect s (.store a) (s.mem.set a.toNat s.acc)
  | push (nonempty : s.sp ≠ 0) (ins : s.inMem (s.sp - 1).toNat) :
      MemEffect s .push (s.mem.set (s.sp - 1).toNat s.regA)
  | pushPc {i : Instr} {a : Word} (h : PushesPc i a) (room : 2 ≤ s.sp.toNat)
      (ins : s.inMem ((s.sp - 2).toNat + 1)) : MemEffect s i (s.memWithPcAt (s.sp - 2).toNat)
  | ret (ins : s.inMem ((s.sp + 2).toNat + 1)) :
      MemEffect s .ret (s.memWithPcAt (s.sp + 2).toNat)

/-- An error and a register write leave memory alone, so only the five writers change it. -/
theorem Effect.mem {s t : State} {i : Instr} (h : Effect s i t) : MemEffect s i t.mem := by
  cases h with
  | store ins => exact .store ins
  | push nonempty ins => exact .push nonempty ins
  | pushPc h room ins => exact .pushPc h room ins
  | ret ins => exact .ret ins
  | acc | mov | cmp | taken | notTaken | pop | cli | sei | halt => exact .unchanged
  | dataOutside | divByZero | noRoom | pushPcOutside | retOutside | pushEmpty | pushOutside
  | popOutside => rw [errorEntry_mem]; exact .unchanged

/-- The word write of the stack keeps the size and the canonical form (20_memory.md R55). -/
theorem memWithPcAt_keeps {s : State} {a : Nat} (ins : s.inMem (a + 1)) :
    (s.memWithPcAt a).size = s.mem.size ∧ (s.mem.wf → (s.memWithPcAt a).wf) :=
  Memory.write16_keeps (Memory.write16_inside s.pc ins)

/-- Every write of an instruction is bounds checked, so it keeps the size and the canonical form. -/
theorem MemEffect.keeps {s : State} {i : Instr} {m : Memory} (h : MemEffect s i m) :
    m.size = s.mem.size ∧ (s.mem.wf → m.wf) := by
  cases h with
  | unchanged => exact ⟨rfl, id⟩
  | store ins | push _ ins => exact Memory.write_keeps (Memory.write_inside _ ins)
  | pushPc _ _ ins | ret ins => exact memWithPcAt_keeps ins

/-- Whatever a step does, memory keeps its size and its canonical form. -/
theorem step_keeps_mem {s t : State} (h : step s = .next t) :
    t.mem.size = s.mem.size ∧ (s.mem.wf → t.mem.wf) := by
  cases step_effect h with
  | halted _ e => rw [e]; exact ⟨rfl, id⟩
  | fetchError _ f e =>
    obtain ⟨p, rfl⟩ := f.raise_eq_setPc
    rw [e, errorEntry_mem]
    exact ⟨rfl, id⟩
  | executed _ f eff =>
    obtain ⟨-, -, rfl⟩ := f.executes
    exact eff.mem.keeps

/-! ### The run state and the error status after a step -/

/-- The error status registers of `t` are those of `s` (10_state.md R30). -/
structure SameStatus (s t : State) : Prop where
  err : t.err = s.err
  errOpcode : t.errOpcode = s.errOpcode
  errPc : t.errPc = s.errPc

/-- The fetch moves `pc` and no error status register. -/
theorem SameStatus.of_setPc {s t : State} {p : Word} (same : SameStatus (s.setPc p) t) :
    SameStatus s t :=
  ⟨same.err, same.errOpcode, same.errPc⟩

/-- What holds of the registers where an error is raised (60_exceptions.md R192 to R195). -/
def Fault.RaisedIn (s : State) : Fault → Prop
  | .outOfBounds => True
  | .unknownInstruction op p => descriptor op = none ∧ s.pc = p + 1
  | .divisionByZero => s.regB = 0
  | .stackUnderflow => s.sp = 0
  | .stackOverflow => s.sp.toNat < 2

/-- How an instruction leaves the run state: the machine goes on, halts, or enters an error that it
raised with the error status still untouched (40_fetch_step.md R105). -/
inductive Ending (s : State) (i : Instr) (t : State) : Prop where
  | goesOn (same : SameStatus s t) (h : t.halted = s.halted) : Ending s i t
  | halts (is : i = .halt) (same : SameStatus s t) (h : t.halted = true) : Ending s i t
  | fails {e : Fault} {u : State} (eq : t = errorEntry e u) (same : SameStatus s u)
      (raised : e.RaisedIn u) : Ending s i t

theorem Effect.ending {s t : State} {i : Instr} (h : Effect s i t) : Ending s i t := by
  cases h with
  | acc | store | mov | cmp | taken | notTaken | pushPc | ret | push | pop | cli | sei =>
    exact .goesOn ⟨rfl, rfl, rfl⟩ rfl
  | halt => exact .halts rfl ⟨rfl, rfl, rfl⟩ rfl
  | dataOutside | pushPcOutside | retOutside | pushOutside | popOutside =>
    exact .fails rfl ⟨rfl, rfl, rfl⟩ trivial
  | divByZero zero => exact .fails rfl ⟨rfl, rfl, rfl⟩ zero
  | noRoom _ few => exact .fails rfl ⟨rfl, rfl, rfl⟩ few
  | pushEmpty empty => exact .fails rfl ⟨rfl, rfl, rfl⟩ empty

/-- A fetch fails with one of its two errors, as 60_exceptions.md R191 and R192 have them. -/
theorem FetchEffect.raised {s s' : State} {e : Fault} (f : FetchEffect s (.raise e s')) :
    SameStatus s s' ∧ e.RaisedIn s' := by
  cases f with
  | opcodeOutside | operandOutside => exact ⟨⟨rfl, rfl, rfl⟩, trivial⟩
  | unknown _ undefined => exact ⟨⟨rfl, rfl, rfl⟩, undefined, rfl⟩

/-- How a step of a running machine leaves the run state (40_fetch_step.md R105). -/
inductive StepEnding (s t : State) : Prop where
  | goesOn (same : SameStatus s t) (h : t.running) : StepEnding s t
  | halts (fetched : s.fetches 0xFF) (same : SameStatus s t) (h : t.halted = true) :
      StepEnding s t
  | fails {e : Fault} {u : State} (eq : t = errorEntry e u) (same : SameStatus s u)
      (raised : e.RaisedIn u) : StepEnding s t

theorem step_ending {s t : State} (running : s.running) (h : step s = .next t) :
    StepEnding s t := by
  cases step_effect h with
  | halted halted => exact absurd (running.symm.trans halted) Bool.false_ne_true
  | fetchError _ f eq =>
    obtain ⟨same, raised⟩ := f.raised
    exact .fails eq same raised
  | executed _ f eff =>
    obtain ⟨inside, bytes, rfl⟩ := f.executes
    cases eff.ending with
    | goesOn same h => exact .goesOn same.of_setPc (h.trans running)
    | halts is same h =>
      subst is
      obtain ⟨opcode, -⟩ := List.cons.inj (bytes.trans s.codeBytes_one)
      exact .halts ⟨running, inside, opcode.symm⟩ same.of_setPc h
    | fails eq same raised => exact .fails eq same.of_setPc raised

/-- No error has the code 0 (60_exceptions.md R190; D12). -/
theorem Fault.code_ne_zero (e : Fault) : e.code ≠ 0 := by
  cases e <;> simp [Fault.code]

/-! ### Every step answers a next state -/

theorem exec_next (i : Instr) (s : State) : ∃ t, exec i s = .next t := by
  cases i with
  | inc | dec | jmp | lda | mov | mul | cmp | jp | jn | cli | sei | halt | jz
  | jnz => exact ⟨_, rfl⟩
  | load | store | add | sub | and | or | xor | div | call | ret | int | push | pop =>
    exact finish_next _

theorem step_next (s : State) : ∃ t, step s = .next t := by
  cases hh : s.halted with
  | true => exact ⟨s, step_halted hh⟩
  | false =>
    cases hf : fetchInstr s with
    | ok i s' => rw [step_of_fetchInstr_ok hh hf]; exact exec_next i s'
    | raise e s' => exact ⟨_, step_of_fetchInstr_raise hh hf⟩

/-! ### The run loop -/

/-- The run loop ends at once in Halted, or it has fuel for a step and goes on after it
(40_fetch_step.md R104). -/
theorem run_cases {fuel : Nat} {s t : State} (h : run fuel s = some t) :
    (s.halted = true ∧ t = s) ∨
      ∃ k s', fuel = k + 1 ∧ s.running ∧ step s = .next s' ∧ run k s' = some t := by
  cases hh : s.halted with
  | true =>
    rw [run_halted hh] at h
    cases h
    exact .inl ⟨rfl, rfl⟩
  | false =>
    rw [run.eq_def, hh] at h
    cases fuel with
    | zero => cases h
    | succ k =>
      obtain ⟨s', next⟩ := step_next s
      simp only [next] at h
      exact .inr ⟨k, s', rfl, hh, next, h⟩

/-- A running state with fuel for one step more runs on from its next state. -/
theorem run_step {s s' : State} (running : s.running) (next : step s = .next s') (k : Nat) :
    run (k + 1) s = run k s' := by
  have h : ¬ s.halted = true := by rw [running]; exact Bool.false_ne_true
  rw [run, if_neg h, next]

/-- Induction along a run that ends in `t`, from its end back to its start. -/
theorem run_induction {t : State} (P : Nat → State → Prop) (ends : t.halted = true → ∀ k, P k t)
    (steps : ∀ k s s', s.running → step s = .next s' → P k s' → P (k + 1) s) {fuel : Nat}
    {s : State} (h : run fuel s = some t) : P fuel s := by
  induction fuel generalizing s with
  | zero =>
    obtain ⟨halted, rfl⟩ | ⟨k, s', none, -⟩ := run_cases h
    · exact ends halted 0
    · cases none
  | succ n ih =>
    obtain ⟨halted, rfl⟩ | ⟨k, s', more, running, next, rest⟩ := run_cases h
    · exact ends halted (n + 1)
    · cases more
      exact steps n s s' running next (ih rest)

/-! ### The obligations -/

/-- Settles O16: a halted state is a fixed point of the step and of the run loop. -/
theorem haltedStaysAsItIs : Obligations.HaltedStaysAsItIs := fun s fuel halted =>
  ⟨step_halted halted, run_halted halted fuel, by
    rw [runResult, run_halted halted, Option.map_some]⟩

/-- Settles O17: the endings of a step, where each error has a code other than 0. -/
theorem runStateTransitions : Obligations.RunStateTransitions := by
  refine ⟨step_next, fun s t running clean next => ?_⟩
  cases step_ending running next with
  | goesOn same h => exact .inl ⟨h, same.err.trans clean⟩
  | halts fetched same h => exact .inr (.inl ⟨⟨h, same.err.trans clean⟩, fetched⟩)
  | fails eq =>
    rw [eq, errorEntry_halted, errorEntry_err]
    exact .inr (.inr ⟨rfl, Fault.code_ne_zero _⟩)

/-- Settles O18: three inductions along the run. -/
theorem runEndsOnce : Obligations.RunEndsOnce := by
  refine fun fuel s t ended => ⟨?halted, ?size, ?more⟩
  case halted =>
    exact run_induction (fun _ _ => t.halted = true) (fun halted _ => halted)
      (fun _ _ _ _ _ ih => ih) ended
  case size =>
    refine run_induction (fun _ s => t.mem.size = s.mem.size) (fun _ _ => rfl)
      (fun _ s s' _ next ih => ?_) ended
    obtain ⟨size, -⟩ := step_keeps_mem next
    exact ih.trans size
  case more =>
    refine run_induction (fun k s => ∀ more, run (k + more) s = some t)
      (fun halted _ _ => run_halted halted _) (fun k s s' running next ih more => ?_) ended
    rw [Nat.add_right_comm, run_step running next, ih]

end Sys2Proof.Machine
end

section
/-! PROOFS. The obligations on reset and on the host's moves (70_reset_and_hazards.md). -/

namespace Sys2Proof.Machine

/-! ### The host's memory accesses, inside the bounds and outside them -/

theorem hostWrite_inside {s : State} {a : Nat} (v : Byte) (h : s.inMem a) :
    hostWrite a v s = some (s.setMem (s.mem.set a v)) := by
  rw [hostWrite, Memory.write_inside v h, Option.map_some]

theorem hostWrite16_inside {s : State} {a : Nat} (v : Word) (h : s.inMem (a + 1)) :
    hostWrite16 a v s =
      some (s.setMem ((s.mem.set a (lowByte v)).set (a + 1) (highByte v))) := by
  rw [hostWrite16, Memory.write16_inside v h, Option.map_some]

/-- A byte the host writes inside memory (20_memory.md R53, R68, R69). -/
theorem hostWrite_stores {s : State} {a : Nat} (v : Byte) (h : s.inMem a) :
    ∃ t, hostWrite a v s = some t ∧ StoresByte s t a v ∧ hostRead a t = some v := by
  refine ⟨_, hostWrite_inside v h, storesByte_setMem_set s a v, ?_⟩
  simp [hostRead, h]

/-- A word the host writes inside memory (20_memory.md R55, R68, R69). -/
theorem hostWrite16_stores {s : State} {a : Nat} (v : Word) (h : s.inMem (a + 1)) :
    ∃ t, hostWrite16 a v s = some t ∧ StoresWord s t a v ∧ hostRead16 a t = some v := by
  refine ⟨_, hostWrite16_inside v h, storesWord_setMem_set s a v, ?_⟩
  simp [hostRead16, h]

theorem hostWrite_outside {s : State} {a : Nat} (v : Byte) (h : ¬ s.inMem a) :
    hostWrite a v s = none ∧ hostRead a s = none := by
  rw [hostWrite, hostRead, Memory.write_outside v h, Option.map_none]
  exact ⟨rfl, Memory.read_outside h⟩

theorem hostWrite16_outside {s : State} {a : Nat} (v : Word) (h : ¬ s.inMem (a + 1)) :
    hostWrite16 a v s = none ∧ hostRead16 a s = none := by
  rw [hostWrite16, hostRead16, Memory.write16_outside v h, Option.map_none]
  exact ⟨rfl, Memory.read16_outside h⟩

/-! ### The presets -/

/-- The register write a preset asks for (70_reset_and_hazards.md R223). -/
def Preset.apply (s : State) : Preset → State
  | .pc v => s.setPc v
  | .acc v => s.setAcc v
  | .regA v => s.setRegA v
  | .regB v => s.setRegB v
  | .sp v => s.setSp v

theorem hostPreset_running {s : State} (running : s.running) (p : Preset) :
    hostPreset p s = some (p.apply s) := by
  have h : ¬ s.halted = true := by rw [running]; exact Bool.false_ne_true
  rw [hostPreset.eq_def, if_neg h]
  cases p <;> rfl

theorem hostPreset_halted {s : State} (halted : s.halted = true) (p : Preset) :
    hostPreset p s = none := by
  rw [hostPreset.eq_def, if_pos halted]

/-! ### The obligations -/

/-- Settles O20: no cell is listed after construction, so every byte reads as unlisted. -/
theorem constructionValues : Obligations.ConstructionValues :=
  ⟨fun n => ⟨{ size := n, cells := [] }, rfl, rfl, fun _ inside => Memory.read_inside inside⟩, rfl⟩

/-- Settles O21: the fetch at 0x0000 is outside an empty memory and reads the undefined opcode 0x00
in every other. -/
theorem firstStepOfUnloadedMachine : Obligations.FirstStepOfUnloadedMachine := by
  intro n
  split
  next empty =>
    have outside : ¬ (State.construct n).inMem (State.construct n).pc.toNat := by
      show ¬ 0 < n.val
      omega
    rw [step_opcode_outside rfl outside, errorEntry_outOfBounds]
  next nonempty =>
    have inside : (State.construct n).inMem (State.construct n).pc.toNat := by
      show 0 < n.val
      omega
    rw [step_unknown rfl inside rfl, errorEntry_unknownInstruction]
    rfl

/-- Settles O23: one lemma per move of the host, on each side of its check. -/
theorem hostMoves : Obligations.HostMoves := fun _ =>
  ⟨fun _ v h => hostWrite_stores v h, fun _ v h => hostWrite_outside v h,
    fun _ v h => hostWrite16_stores v h, fun _ v h => hostWrite16_outside v h,
    fun _ h => ⟨hostPreset_running h _, hostPreset_running h _⟩,
    fun _ h => ⟨hostPreset_running h _, hostPreset_running h _, hostPreset_running h _⟩,
    fun p h => hostPreset_halted h p, rfl⟩

end Sys2Proof.Machine
end

section
/-! PROOFS. The obligations on DIV and CMP (42_alu.md R139, R140), control transfer (43_control.md),
the stack (44_stack.md) and the system instructions (45_system.md). -/

namespace Sys2Proof.Machine

/-! ### The meanings with no access that could fail -/

theorem exec_cmp (s : State) : exec .cmp s = .next s := rfl

theorem exec_jp (addr : Word) (s : State) : exec (.jp addr) s = .next { s with pc := addr } := rfl

theorem exec_jn (addr : Word) (s : State) : exec (.jn addr) s = .next { s with pc := addr } := rfl

theorem exec_cli (s : State) : exec .cli s = .next { s with interruptsEnabled := false } := rfl

theorem exec_sei (s : State) : exec .sei s = .next { s with interruptsEnabled := true } := rfl

/-! ### The conditional jumps -/

theorem exec_jz (addr : Word) (s : State) :
    exec (.jz addr) s = finish (.ok () (if s.accIsZero then s.setPc addr else s)) := rfl

theorem exec_jnz (addr : Word) (s : State) :
    exec (.jnz addr) s = finish (.ok () (if s.accIsZero then s else s.setPc addr)) := rfl

theorem accIsZero_iff (s : State) : s.accIsZero = true ↔ s.acc.toNat = 0 := by
  rw [State.accIsZero, beq_iff_eq]
  exact BitVec.toNat_eq

/-! ### Division -/

theorem exec_div_zero {s : State} (zero : s.regB = 0) :
    exec .div s = .next (errorEntry .divisionByZero s) := by
  rw [exec, execDiv, aluDiv, if_pos zero]
  rfl

theorem exec_div_nonzero {s : State} (nonzero : s.regB ≠ 0) :
    exec .div s = .next (s.setAcc (s.regA / s.regB)) := by
  rw [exec, execDiv, aluDiv, if_neg nonzero]
  rfl

/-! ### The push of the return address -/

theorem exec_call (addr : Word) (s : State) :
    exec (.call addr) s = finish (pushPcAndJump addr s) := rfl

theorem exec_int (vec : Word) (s : State) :
    exec (.int vec) s = finish (pushPcAndJump vec s) := rfl

theorem finish_pushPcAndJump_noRoom {target : Word} {s : State} (few : s.sp.toNat < 2) :
    finish (pushPcAndJump target s) = .next (errorEntry .stackOverflow s) := by
  rw [pushPcAndJump_eq, if_pos few, finish_raise]

theorem finish_pushPcAndJump_outside {target : Word} {s : State} (room : 2 ≤ s.sp.toNat)
    (outside : ¬ s.inMem ((s.sp - 2).toNat + 1)) :
    finish (pushPcAndJump target s) =
      .next (errorEntry .outOfBounds { s with sp := s.sp - 2 }) := by
  rw [pushPcAndJump_eq, if_neg (not_lt.mpr room), if_neg outside, finish_raise]
  rfl

/-- The state after a push of the return address: the checked decrement, the word, the jump
(43_control.md R155). -/
theorem finish_pushPcAndJump_inside {target : Word} {s : State} (room : 2 ≤ s.sp.toNat)
    (inside : s.inMem ((s.sp - 2).toNat + 1)) :
    finish (pushPcAndJump target s) =
      .next { s with sp := s.sp - 2, pc := target, mem := s.memWithPcAt (s.sp - 2).toNat } := by
  rw [pushPcAndJump_eq, if_neg (not_lt.mpr room), if_pos inside, finish_ok]
  rfl

/-- With `pc` stored as a word at `a`, the two bytes there are the only ones that differ. -/
theorem storesWord_memWithPcAt (s : State) (p q : Word) (a : Nat) :
    StoresWord { s with sp := p, pc := q }
      { s with sp := p, pc := q, mem := s.memWithPcAt a } a s.pc :=
  storesWord_setMem_set { s with sp := p, pc := q } a s.pc

theorem get_memWithPcAt_low (s : State) (a : Nat) : (s.memWithPcAt a).get a = lowByte s.pc :=
  Memory.get_set_next ..

theorem get_memWithPcAt_high (s : State) (a : Nat) :
    (s.memWithPcAt a).get (a + 1) = highByte s.pc :=
  Memory.get_set_self ..

theorem get_memWithPcAt_other (s : State) {a b : Nat} (low : b ≠ a) (high : b ≠ a + 1) :
    (s.memWithPcAt a).get b = s.mem.get b := by
  rw [State.memWithPcAt, Memory.get_set_other _ _ high, Memory.get_set_other _ _ low]

/-- A word written just above another one leaves it readable (20_memory.md R55). -/
theorem get_memWithPcAt_twice (s t : State) (a : Nat) (h : t.mem = s.memWithPcAt a) :
    (t.memWithPcAt (a + 2)).get a = lowByte s.pc ∧
      (t.memWithPcAt (a + 2)).get (a + 1) = highByte s.pc := by
  rw [get_memWithPcAt_other t (by omega) (by omega), get_memWithPcAt_other t (by omega) (by omega),
    h]
  exact ⟨get_memWithPcAt_low s a, get_memWithPcAt_high s a⟩

/-- The checked decrements subtract without a borrow (44_stack.md R165). -/
theorem Word.toNat_sub_two {p : Word} (h : 2 ≤ p.toNat) : (p - 2).toNat = p.toNat - 2 := by
  bv_omega

theorem Word.toNat_sub_one {p : Word} (h : 1 ≤ p.toNat) : (p - 1).toNat = p.toNat - 1 := by
  bv_omega

theorem Word.sub_two_add_two (p : Word) : p - 2 + 2 = p := BitVec.sub_add_cancel p 2

/-! ### RET -/

theorem exec_ret (s : State) :
    exec .ret s = finish (memWrite16 (s.sp + 2) s.pc (s.setSp (s.sp + 2))) := rfl

/-- RET with `p` the incremented `sp`: `pc` is stored there and kept (43_control.md R156). -/
theorem exec_ret_inside {s : State} {p : Word} (incremented : s.sp + 2 = p)
    (inside : s.inMem (p.toNat + 1)) :
    exec .ret s = .next { s with sp := p, mem := s.memWithPcAt p.toNat } := by
  have stored : (s.setSp p).inMem (p.toNat + 1) := inside
  rw [exec_ret, incremented, memWrite16_eq, if_pos stored, finish_ok]
  rfl

theorem exec_ret_outside {s : State} (outside : ¬ s.inMem ((s.sp + 2).toNat + 1)) :
    exec .ret s = .next (errorEntry .outOfBounds { s with sp := s.sp + 2 }) := by
  have refused : ¬ (s.setSp (s.sp + 2)).inMem ((s.sp + 2).toNat + 1) := outside
  rw [exec_ret, memWrite16_eq, if_neg refused, finish_raise]
  rfl

/-! ### PUSH and POP -/

theorem exec_push (s : State) : exec .push s = finish (pushByte s.regA s) := rfl

theorem exec_push_inside {s : State} (nonempty : 1 ≤ s.sp.toNat)
    (inside : s.inMem (s.sp - 1).toNat) :
    exec .push s =
      .next { s with sp := s.sp - 1, mem := s.mem.set (s.sp - 1).toNat s.regA } := by
  have h : s.sp ≠ 0 := fun zero => absurd nonempty (zero ▸ Nat.not_succ_le_zero 0)
  rw [exec_push, pushByte_eq, if_neg h, if_pos inside, finish_ok]
  rfl

theorem exec_push_outside {s : State} (nonempty : 1 ≤ s.sp.toNat)
    (outside : ¬ s.inMem (s.sp - 1).toNat) :
    exec .push s = .next (errorEntry .outOfBounds { s with sp := s.sp - 1 }) := by
  have h : s.sp ≠ 0 := fun zero => absurd nonempty (zero ▸ Nat.not_succ_le_zero 0)
  rw [exec_push, pushByte_eq, if_neg h, if_neg outside, finish_raise]
  rfl

theorem exec_push_empty {s : State} (empty : s.sp.toNat = 0) :
    exec .push s = .next (errorEntry .stackUnderflow s) := by
  rw [exec_push, pushByte_eq, if_pos (BitVec.eq_of_toNat_eq empty), finish_raise]

theorem exec_pop_inside {s : State} (inside : s.inMem s.sp.toNat) :
    exec .pop s = .next { s with regA := s.mem.get s.sp.toNat, sp := s.sp + 1 } := by
  show finish ((popByte s).bind fun v s => .ok () (s.setRegA v)) = _
  rw [popByte_eq, if_pos inside]
  rfl

theorem exec_pop_outside {s : State} (outside : ¬ s.inMem s.sp.toNat) :
    exec .pop s = .next (errorEntry .outOfBounds s) := by
  show finish ((popByte s).bind fun v s => .ok () (s.setRegA v)) = _
  rw [popByte_eq, if_neg outside]
  rfl

/-! ### The flags view -/

/-- `flags` has `halted` in bit 0 and `interrupts_enabled` in bit 1 (10_state.md R28). -/
theorem flags_bits (s : State) :
    s.flags.getLsbD 0 = s.halted ∧ s.flags.getLsbD 1 = s.interruptsEnabled := by
  unfold State.flags
  cases s.halted <;> cases s.interruptsEnabled <;> decide

/-! ### The obligations -/

/-- Settles O32: format N by its row of the map; the two sides of the divisor check. -/
theorem divInstruction : Obligations.DivInstruction :=
  ⟨stepsFormatN_of_descriptor rfl, fun _ =>
    ⟨fun nonzero => ⟨_, exec_div_nonzero nonzero, BitVec.toNat_udiv⟩, exec_div_zero⟩⟩

/-- Settles O33: format N by its row of the map; CMP is no operation. -/
theorem cmpInstruction : Obligations.CmpInstruction :=
  ⟨stepsFormatN_of_descriptor rfl, exec_cmp⟩

/-- Settles O35: JMP loads the target unchecked, and the next fetch of an opcode fails there. -/
theorem jumpTargetCheckedAtNextFetch : Obligations.JumpTargetCheckedAtNextFetch := by
  intro addr s running outside
  have fails : step { s with pc := addr } = .next (errorEntry .outOfBounds { s with pc := addr }) :=
    step_opcode_outside running outside
  exact ⟨_, exec_jmp addr s, running, rfl, by rw [fails, errorEntry_outOfBounds]⟩

/-- Settles O36: format A by the two rows of the map; the condition is that `acc` is 0. -/
theorem jzJnzInstructions : Obligations.JzJnzInstructions := by
  refine ⟨stepsFormatA_of_descriptor rfl, stepsFormatA_of_descriptor rfl,
    fun addr s => ⟨fun zero => ?_, fun nonzero => ?_⟩⟩
  · have h : s.accIsZero = true := (accIsZero_iff s).mpr zero
    rw [exec_jz, exec_jnz, if_pos h, if_pos h]
    exact ⟨rfl, rfl⟩
  · have h : ¬ s.accIsZero = true := mt (accIsZero_iff s).mp nonzero
    rw [exec_jz, exec_jnz, if_neg h, if_neg h]
    exact ⟨rfl, rfl⟩

/-- Settles O37: format A by the two rows of the map; both meanings are that of JMP. -/
theorem jpJnInstructions : Obligations.JpJnInstructions :=
  ⟨stepsFormatA_of_descriptor rfl, stepsFormatA_of_descriptor rfl, fun addr s =>
    ⟨exec_jp addr s, exec_jn addr s, (exec_jp addr s).trans (exec_jmp addr s).symm,
      (exec_jn addr s).trans (exec_jmp addr s).symm⟩⟩

/-- Settles O38: format A by its row of the map; the three cases of the push of `pc`. -/
theorem callInstruction : Obligations.CallInstruction := by
  refine ⟨stepsFormatA_of_descriptor rfl, fun addr s => ?_⟩
  rw [exec_call]
  exact ⟨finish_pushPcAndJump_noRoom,
    fun room inside => ⟨_, finish_pushPcAndJump_inside room inside, Word.toNat_sub_two room,
      storesWord_memWithPcAt s _ _ _⟩, finish_pushPcAndJump_outside⟩

/-- Settles O44: format A by its row of the map; the meaning is that of CALL. -/
theorem intInstruction : Obligations.IntInstruction := by
  refine ⟨stepsFormatA_of_descriptor rfl, fun vec s => ?_⟩
  rw [exec_int, exec_call]
  exact ⟨finish_pushPcAndJump_noRoom,
    fun room inside => ⟨_, finish_pushPcAndJump_inside room inside,
      storesWord_memWithPcAt s _ _ _⟩, finish_pushPcAndJump_outside, rfl⟩

/-- Settles O39: format N by its row of the map; the two sides of the bound of the word at the new
`sp`. -/
theorem retInstruction : Obligations.RetInstruction := by
  refine ⟨stepsFormatN_of_descriptor rfl, fun s => ⟨fun inside => ?_, exec_ret_outside⟩⟩
  exact ⟨_, exec_ret_inside rfl inside, BitVec.toNat_add s.sp 2, storesWord_memWithPcAt s _ _ _⟩

/-- Settles O40: CALL stores the return address at `sp - 2`, and RET stores its own `pc` at the
`sp` it brings back, two bytes above. -/
theorem retAfterCallDoesNotReturn : Obligations.RetAfterCallDoesNotReturn := by
  intro s addr q room inside
  have above : s.sp.toNat = (s.sp - 2).toNat + 2 := by rw [Word.toNat_sub_two room]; omega
  have insideBelow : s.inMem ((s.sp - 2).toNat + 1) := by
    rw [above] at inside
    exact Nat.lt_trans (by omega) inside
  refine ⟨_, _, finish_pushPcAndJump_inside room insideBelow,
    exec_ret_inside (Word.sub_two_add_two s.sp) inside, rfl, ?_⟩
  rw [above, Nat.add_sub_cancel, Nat.add_sub_assoc (by decide)]
  obtain ⟨lowKept, highKept⟩ := get_memWithPcAt_twice s
    { s with sp := s.sp - 2, pc := q, mem := s.memWithPcAt (s.sp - 2).toNat } (s.sp - 2).toNat rfl
  rw [← lowByte_toNat, ← highByte_toNat, ← lowByte_toNat, ← highByte_toNat]
  exact ⟨congrArg _ (get_memWithPcAt_low _ _), congrArg _ (get_memWithPcAt_high _ _),
    congrArg _ lowKept, congrArg _ highKept⟩

/-- Settles O41: format N by its row of the map; the three cases of the push of a byte. -/
theorem pushInstruction : Obligations.PushInstruction := by
  refine ⟨stepsFormatN_of_descriptor rfl, fun s => ⟨exec_push_empty, fun nonempty inside => ?_,
    exec_push_outside⟩⟩
  exact ⟨_, exec_push_inside nonempty inside, Word.toNat_sub_one nonempty,
    storesByte_setMem_set { s with sp := s.sp - 1 } _ _⟩

/-- Settles O42: format N by its row of the map; the two sides of the bound of the byte at `sp`. -/
theorem popInstruction : Obligations.PopInstruction :=
  ⟨stepsFormatN_of_descriptor rfl, fun s =>
    ⟨fun inside => ⟨_, exec_pop_inside inside, BitVec.toNat_add s.sp 1⟩, exec_pop_outside⟩⟩

/-- Settles O43: POP reads the byte PUSH stored and brings `sp` back. -/
theorem pushPopRestores : Obligations.PushPopRestores := by
  intro s nonempty inside
  refine ⟨_, _, exec_push_inside nonempty inside, exec_pop_inside inside, ?_⟩
  rw [Memory.get_set_self, BitVec.sub_add_cancel]
  exact storesByte_setMem_set s _ _

/-- Settles O45: format N by the two rows of the map; the bits of the `flags` view. -/
theorem cliSeiInstructions : Obligations.CliSeiInstructions :=
  ⟨stepsFormatN_of_descriptor rfl, stepsFormatN_of_descriptor rfl,
    fun s => ⟨exec_cli s, exec_sei s, flags_bits s⟩⟩

end Sys2Proof.Machine
end

section
/-! PROOFS. The obligations on the invariant (60_exceptions.md section 1): construction, every step,
every run and the host's moves keep it. -/

namespace Sys2Proof.Machine

/-! ### The two ways to have the invariant -/

/-- A canonical memory and no error status: the invariant's case of a machine in which no error was
raised (10_state.md R30). -/
structure NoError (s : State) : Prop where
  memory : s.mem.wf
  err : s.err = 0
  errOpcode : s.errOpcode = 0
  errPc : s.errPc = 0

theorem NoError.inv {s : State} (h : NoError s) : Inv s where
  memory := h.memory
  errHalted nonzero := absurd h.err nonzero
  errCode := by rw [h.err]; decide
  payload _ := ⟨h.errOpcode, h.errPc⟩
  unknown two := absurd (h.err.symm.trans two) (by decide)
  division three := absurd (h.err.symm.trans three) (by decide)
  underflow four := absurd (h.err.symm.trans four) (by decide)
  overflow five := absurd (h.err.symm.trans five) (by decide)

/-- Only a halted machine has an error status, so a running one with the invariant has none. -/
theorem Inv.noError {s : State} (h : Inv s) (running : s.running) : NoError s := by
  have err : s.err = 0 := by
    by_contra nonzero
    exact absurd (running.symm.trans (h.errHalted nonzero)) Bool.false_ne_true
  obtain ⟨opcode, pc⟩ := h.payload (by rw [err]; decide)
  exact ⟨h.memory, err, opcode, pc⟩

/-- The codes 6 and 7 are no error's (60_exceptions.md R190). -/
theorem Fault.code_le (e : Fault) : e.code.toNat ≤ 5 := by
  cases e <;> simp [Fault.code]

/-- The entry of an error, raised where the spec has it raised, gives the invariant: the five cases
of 60_exceptions.md R191 to R195. -/
theorem NoError.inv_errorEntry {s : State} {e : Fault} (h : NoError s) (raised : e.RaisedIn s) :
    Inv (errorEntry e s) := by
  have memory : (errorEntry e s).mem.wf := by rw [errorEntry_mem]; exact h.memory
  have halted (_ : (errorEntry e s).err ≠ 0) : (errorEntry e s).halted = true :=
    errorEntry_halted s e
  have code : (errorEntry e s).err.toNat ≤ 5 := by rw [errorEntry_err]; exact e.code_le
  cases e with
  | outOfBounds =>
    exact ⟨memory, halted, code, fun _ => ⟨h.errOpcode, h.errPc⟩, nofun, nofun, nofun, nofun⟩
  | unknownInstruction op p =>
    obtain ⟨undefined, pc⟩ := raised
    exact ⟨memory, halted, code, fun other => absurd rfl other,
      fun _ => ⟨Option.isNone_iff_eq_none.mpr undefined, pc⟩, nofun, nofun, nofun⟩
  | divisionByZero =>
    exact ⟨memory, halted, code, fun _ => ⟨h.errOpcode, h.errPc⟩, nofun, fun _ => raised,
      nofun, nofun⟩
  | stackUnderflow =>
    exact ⟨memory, halted, code, fun _ => ⟨h.errOpcode, h.errPc⟩, nofun, nofun,
      fun _ => raised, nofun⟩
  | stackOverflow =>
    exact ⟨memory, halted, code, fun _ => ⟨h.errOpcode, h.errPc⟩, nofun, nofun, nofun,
      fun _ => raised⟩

/-- The error status registers unchanged and a canonical memory: still no error. -/
theorem NoError.of_sameStatus {s t : State} (h : NoError s) (same : SameStatus s t)
    (memory : t.mem.wf) : NoError t :=
  ⟨memory, same.err.trans h.err, same.errOpcode.trans h.errOpcode, same.errPc.trans h.errPc⟩

/-! ### The obligations -/

/-- Settles O47: a step from Halted changes nothing; one from Running keeps the memory canonical,
and its ending is without an error or in the entry of one. -/
theorem stepKeepsInvariant : Obligations.StepKeepsInvariant := by
  intro s t inv next
  cases hh : s.halted with
  | true =>
    rw [step_halted hh] at next
    cases next
    exact inv
  | false =>
    have noError := inv.noError hh
    obtain ⟨-, canonical⟩ := step_keeps_mem next
    have memory := canonical inv.memory
    cases step_ending hh next with
    | goesOn same | halts _ same => exact (noError.of_sameStatus same memory).inv
    | fails eq same raised =>
      rw [eq, errorEntry_mem] at memory
      rw [eq]
      exact (noError.of_sameStatus same memory).inv_errorEntry raised

/-- Settles O48: construction lists no cell and sets no error. -/
theorem constructionHasInvariant : Obligations.ConstructionHasInvariant := by
  have noError (n : Config.MemSize) : NoError (State.construct n) :=
    ⟨⟨List.Pairwise.nil, nofun⟩, rfl, rfl, rfl⟩
  exact ⟨fun n => (noError n).inv, (noError Config.defaultMemSize).inv⟩

/-- A canonical memory in place of the old one keeps the invariant, which says nothing else of
memory. -/
theorem Inv.setMem {s : State} {m : Memory} (h : Inv s) (memory : m.wf) : Inv (s.setMem m) :=
  ⟨memory, h.errHalted, h.errCode, h.payload, h.unknown, h.division, h.underflow, h.overflow⟩

/-- A preset writes neither memory nor the error status (70_reset_and_hazards.md R223). -/
theorem Preset.apply_noError {s : State} (p : Preset) (h : NoError s) : NoError (p.apply s) := by
  cases p <;> exact ⟨h.memory, h.err, h.errOpcode, h.errPc⟩

/-- Settles O49: the host's writes are checked, and its presets need a running machine, which has no
error status to contradict. -/
theorem hostMovesKeepInvariant : Obligations.HostMovesKeepInvariant := by
  rintro s t inv (⟨a, v, moved⟩ | ⟨a, v, moved⟩ | ⟨p, moved⟩)
  · obtain ⟨m, written, rfl⟩ := Option.map_eq_some_iff.mp moved
    obtain ⟨-, canonical⟩ := Memory.write_keeps written
    exact inv.setMem (canonical inv.memory)
  · obtain ⟨m, written, rfl⟩ := Option.map_eq_some_iff.mp moved
    obtain ⟨-, canonical⟩ := Memory.write16_keeps written
    exact inv.setMem (canonical inv.memory)
  · cases hh : s.halted with
    | true =>
      rw [hostPreset_halted hh] at moved
      cases moved
    | false =>
      rw [hostPreset_running hh] at moved
      cases moved
      exact (p.apply_noError (inv.noError hh)).inv

/-- Settles O50: by induction along the run, each step by O47. -/
theorem runKeepsInvariant : Obligations.RunKeepsInvariant := by
  intro fuel s t inv ended
  exact run_induction (fun _ s => Inv s → Inv t) (fun _ _ inv => inv)
    (fun _ s s' _ next ih inv => ih (stepKeepsInvariant s s' inv next)) ended inv

end Sys2Proof.Machine
end

section
/-! PROOFS. The obligations on the access matrix (10_state.md section 3) and on the bytes a step can
change (20_memory.md section 2). -/

namespace Sys2Proof.Machine

/-! ### The opcodes of the instructions that write something -/

/-- The first byte of an instruction (30_encoding.md R80). -/
def opcodeOf (i : Instr) : Byte := (encode i).headD 0x00

/-- The instruction a step executes has the opcode at `pc` (40_fetch_step.md R102). -/
theorem FetchEffect.opcodeOf_eq {s s' : State} {i : Instr} (f : FetchEffect s (.ok i s')) :
    opcodeOf i = s.mem.get s.pc.toNat := by
  obtain ⟨-, bytes, -⟩ := f.executes
  obtain ⟨positive, -⟩ := length_bounds i
  obtain ⟨n, length⟩ := Nat.exists_eq_add_one.mpr positive
  rw [opcodeOf, bytes, length, State.codeBytes, List.range_succ_eq_map, List.map_cons,
    List.headD_cons, s.codeAddr_zero]

theorem WritesAcc.opcode_mem {i : Instr} (h : WritesAcc i) :
    opcodeOf i ∈
      ([0x01, 0x03, 0x04, 0x07, 0x08, 0x09, 0x0A, 0x0B, 0x13, 0x15, 0x16] : List Byte) := by
  cases h <;> simp [opcodeOf, encode, encodeA]

theorem PushesPc.opcode_eq {i : Instr} {a : Word} (h : PushesPc i a) :
    opcodeOf i = 0x18 ∨ opcodeOf i = 0x1C := by
  cases h with
  | call => exact .inl rfl
  | int => exact .inr rfl

/-- The instructions that write `sp` (10_state.md R25; the RET row is D4). -/
inductive WritesSp : Instr → Prop where
  | pushPc {i : Instr} {a : Word} (h : PushesPc i a) : WritesSp i
  | ret : WritesSp .ret
  | push : WritesSp .push
  | pop : WritesSp .pop

theorem WritesSp.opcode_mem {i : Instr} (h : WritesSp i) :
    opcodeOf i ∈ ([0x18, 0x19, 0x1C, 0x1F, 0x20] : List Byte) := by
  cases h with
  | pushPc h => obtain h | h := h.opcode_eq <;> simp [h]
  | ret | push | pop => simp [opcodeOf, encode]

/-! ### Which instruction writes which register -/

theorem Effect.acc_writer {s t : State} {i : Instr} (h : Effect s i t) (changed : t.acc ≠ s.acc) :
    WritesAcc i := by
  cases h with
  | acc writes => exact writes
  | _ => simp at changed

theorem Effect.regA_writer {s t : State} {i : Instr} (h : Effect s i t)
    (changed : t.regA ≠ s.regA) : i = .pop := by
  cases h with
  | pop => rfl
  | _ => simp at changed

theorem Effect.regB_writer {s t : State} {i : Instr} (h : Effect s i t)
    (changed : t.regB ≠ s.regB) : i = .mov := by
  cases h with
  | mov => rfl
  | _ => simp at changed

theorem Effect.sp_writer {s t : State} {i : Instr} (h : Effect s i t) (changed : t.sp ≠ s.sp) :
    WritesSp i := by
  cases h with
  | pushPc h | pushPcOutside h => exact .pushPc h
  | ret | retOutside => exact .ret
  | push | pushOutside => exact .push
  | pop => exact .pop
  | _ => simp at changed

theorem Effect.interruptsEnabled_writer {s t : State} {i : Instr} (h : Effect s i t)
    (changed : t.interruptsEnabled ≠ s.interruptsEnabled) : i = .cli ∨ i = .sei := by
  cases h with
  | cli => exact .inl rfl
  | sei => exact .inr rfl
  | _ => simp at changed

/-! ### Which instruction writes which byte -/

/-- Two bytes written as a word are all that differs. -/
theorem memWithPcAt_changed {s : State} {a b : Nat}
    (changed : (s.memWithPcAt a).get b ≠ s.mem.get b) : b = a ∨ b = a + 1 := by
  by_contra other
  obtain ⟨low, high⟩ := not_or.mp other
  exact changed (get_memWithPcAt_other s low high)

theorem Memory.set_changed {m : Memory} {a b : Nat} {v : Byte}
    (changed : (m.set a v).get b ≠ m.get b) : b = a := by
  by_contra other
  exact changed (Memory.get_set_other m v other)

/-- The addresses an instruction can write, from its operand and `sp` (20_memory.md section 2). -/
theorem MemEffect.footprint {s : State} {i : Instr} {m : Memory} (h : MemEffect s i m) {b : Nat}
    (changed : m.get b ≠ s.mem.get b) :
    (∃ a, i = .store a ∧ b = a.toNat) ∨
      (i = .push ∧ 1 ≤ s.sp.toNat ∧ b = s.sp.toNat - 1) ∨
      ((∃ a, PushesPc i a) ∧ 2 ≤ s.sp.toNat ∧ (b = s.sp.toNat - 2 ∨ b = s.sp.toNat - 1)) ∨
      (i = .ret ∧ (b = (s.sp.toNat + 2) % 65536 ∨ b = (s.sp.toNat + 2) % 65536 + 1)) := by
  cases h with
  | unchanged => exact absurd rfl changed
  | store => exact .inl ⟨_, rfl, Memory.set_changed changed⟩
  | push nonempty =>
    have one : 1 ≤ s.sp.toNat :=
      Nat.one_le_iff_ne_zero.mpr fun zero => nonempty (BitVec.eq_of_toNat_eq zero)
    have address := Memory.set_changed changed
    rw [Word.toNat_sub_one one] at address
    exact .inr (.inl ⟨rfl, one, address⟩)
  | pushPc h room =>
    have address := memWithPcAt_changed changed
    rw [Word.toNat_sub_two room] at address
    exact .inr (.inr (.inl ⟨⟨_, h⟩, room, by omega⟩))
  | ret =>
    have address := memWithPcAt_changed changed
    rw [show (s.sp + 2).toNat = (s.sp.toNat + 2) % 65536 from BitVec.toNat_add s.sp 2] at address
    exact .inr (.inr (.inr ⟨rfl, address⟩))

/-- The operand address of a fetched STORE, from the two bytes after its opcode
(30_encoding.md R83). -/
theorem FetchEffect.store_address {s s' : State} {a : Word}
    (f : FetchEffect s (.ok (.store a) s')) :
    a.toNat =
      (s.mem.get (s.pc + 1).toNat).toNat + 256 * (s.mem.get (s.pc + 2).toNat).toNat := by
  obtain ⟨-, bytes, -⟩ := f.executes
  have bytes : encodeA 0x02 a = s.codeBytes 3 := bytes
  rw [s.codeBytes_three, encodeA, List.cons.injEq, List.cons.injEq, List.cons.injEq] at bytes
  obtain ⟨-, low, high, -⟩ := bytes
  rw [← low, ← high, ← wordOfBytes_toNat, wordOfBytes_bytes]

/-! ### The obligations -/

/-- Settles O51: a fetch error changes none of these registers; an executed instruction changes a
register only if it writes it, and its opcode is the byte at `pc`. -/
theorem registerWriters : Obligations.RegisterWriters := by
  intro s t running next
  have haltClause : t.halted = true → t.err = 0 → s.mem.get s.pc.toNat = 0xFF := by
    intro halted clean
    cases step_ending running next with
    | goesOn _ h => exact absurd (h.symm.trans halted) Bool.false_ne_true
    | halts fetched =>
      obtain ⟨-, -, opcode⟩ := fetched
      exact opcode
    | fails eq =>
      rw [eq, errorEntry_err] at clean
      exact absurd clean (Fault.code_ne_zero _)
  cases step_effect next with
  | halted halted => exact absurd (running.symm.trans halted) Bool.false_ne_true
  | fetchError _ f eq =>
    obtain ⟨p, rfl⟩ := f.raise_eq_setPc
    subst eq
    exact ⟨fun h => absurd (errorEntry_acc ..) h, fun h => absurd (errorEntry_regA ..) h,
      fun h => absurd (errorEntry_regB ..) h, fun h => absurd (errorEntry_sp ..) h,
      fun h => absurd (errorEntry_interruptsEnabled ..) h, haltClause⟩
  | executed _ f eff =>
    have opcode := f.opcodeOf_eq
    obtain ⟨-, -, rfl⟩ := f.executes
    refine ⟨fun h => ?acc, fun h => ?regA, fun h => ?regB, fun h => ?sp, fun h => ?flag,
      haltClause⟩
    case acc => exact opcode ▸ (eff.acc_writer h).opcode_mem
    case regA => rw [← opcode, eff.regA_writer h]; rfl
    case regB => rw [← opcode, eff.regB_writer h]; rfl
    case sp => exact opcode ▸ (eff.sp_writer h).opcode_mem
    case flag =>
      rw [← opcode]
      obtain rfl | rfl := eff.interruptsEnabled_writer h <;> simp [opcodeOf, encode]

/-- Settles O52: a step in Halted and a fetch error write no byte; an executed instruction writes
within its footprint. -/
theorem stepWriteFootprint : Obligations.StepWriteFootprint := by
  intro s t next
  obtain ⟨size, -⟩ := step_keeps_mem next
  refine ⟨size, fun b changed => ?_⟩
  cases step_effect next with
  | halted _ eq => exact absurd (eq ▸ rfl) changed
  | fetchError _ f eq =>
    obtain ⟨p, rfl⟩ := f.raise_eq_setPc
    rw [eq, errorEntry_mem] at changed
    exact absurd rfl changed
  | executed running f eff =>
    have opcode := f.opcodeOf_eq
    obtain ⟨inside, -, rfl⟩ := f.executes
    obtain ⟨a, rfl, rfl⟩ | ⟨rfl, one, address⟩ | ⟨⟨a, pushes⟩, room, address⟩ | ⟨rfl, address⟩ :=
      eff.mem.footprint changed
    · exact .inl ⟨⟨running, inside, opcode.symm⟩, f.store_address⟩
    · exact .inr (.inl ⟨⟨running, inside, opcode.symm⟩, one, address⟩)
    · refine .inr (.inr (.inl ⟨?_, room, address⟩))
      exact pushes.opcode_eq.imp (fun h => ⟨running, inside, opcode.symm.trans h⟩)
        fun h => ⟨running, inside, opcode.symm.trans h⟩
    · exact .inr (.inr (.inr ⟨⟨running, inside, opcode.symm⟩, address⟩))

end Sys2Proof.Machine
end

section
/-! PROOFS. The obligations that nothing reads `interrupts_enabled` or the error status
(10_state.md section 4): two runs of a step, related operation by operation. -/

namespace Sys2Proof.Machine

/-! ### Relations between two states that no operation can tell apart -/

/-- The writes an operation makes to a state: of one register, of memory, or of an error's entry. -/
inductive Write where
  | pc (v : Word)
  | acc (v : Byte)
  | regA (v : Byte)
  | regB (v : Byte)
  | sp (v : Word)
  | halted (v : Bool)
  | interruptsEnabled (v : Bool)
  | mem (m : Memory)
  | error (e : Fault)

/-- The state after a write, by the model's own operation for it. -/
def Write.apply (s : State) : Write → State
  | .pc v => s.setPc v
  | .acc v => s.setAcc v
  | .regA v => s.setRegA v
  | .regB v => s.setRegB v
  | .sp v => s.setSp v
  | .halted v => s.setHalted v
  | .interruptsEnabled v => s.setInterruptsEnabled v
  | .mem m => s.setMem m
  | .error e => errorEntry e s

/-- `t` has the memory, the run state and the registers of `s`, but for `interrupts_enabled` and
the error status: all that an operation reads. -/
structure SameReads (s t : State) : Prop where
  pc : t.pc = s.pc
  acc : t.acc = s.acc
  regA : t.regA = s.regA
  regB : t.regB = s.regB
  sp : t.sp = s.sp
  halted : t.halted = s.halted
  mem : t.mem = s.mem

/-- `R` relates only states that read alike, and the same write of both keeps `R`. -/
structure Unobserved (R : State → State → Prop) : Prop where
  reads : ∀ {s t}, R s t → SameReads s t
  writes : ∀ {s t}, R s t → ∀ w : Write, R (w.apply s) (w.apply t)

/-- The same value or the same error, in related states. -/
inductive ResultRel (R : State → State → Prop) {α : Type} : Result α → Result α → Prop where
  | ok {s t : State} (v : α) (h : R s t) : ResultRel R (.ok v s) (.ok v t)
  | raise {s t : State} (e : Fault) (h : R s t) : ResultRel R (.raise e s) (.raise e t)

/-- Two next states that are related. -/
inductive OutcomeRel (R : State → State → Prop) :
    Host.Outcome State Fault Refusal → Host.Outcome State Fault Refusal → Prop where
  | next {s t : State} (h : R s t) : OutcomeRel R (.next s) (.next t)

section
variable {R : State → State → Prop} {α β : Type} {s t : State}

/-- Related results go on to related results. -/
theorem ResultRel.bind {r r' : Result α} {f : α → State → Result β} (h : ResultRel R r r')
    (cont : ∀ v s t, R s t → ResultRel R (f v s) (f v t)) :
    ResultRel R (r.bind f) (r'.bind f) := by
  cases h with
  | ok v h => exact cont v _ _ h
  | raise e h => exact .raise e h

theorem Unobserved.finish (u : Unobserved R) {r r' : Result Unit} (h : ResultRel R r r') :
    OutcomeRel R (finish r) (finish r') := by
  cases h with
  | ok _ h => exact .next h
  | raise e h => exact .next (u.writes h (.error e))

/-! ### The shared operations -/

theorem Unobserved.memRead (u : Unobserved R) (h : R s t) (a : Word) :
    ResultRel R (memRead a s) (memRead a t) := by
  simp only [memRead_eq, State.inMem, (u.reads h).mem]
  split
  · exact .ok _ h
  · exact .raise _ h

theorem Unobserved.memWrite (u : Unobserved R) (h : R s t) (a : Word) (v : Byte) :
    ResultRel R (memWrite a v s) (memWrite a v t) := by
  simp only [memWrite_eq, State.inMem, (u.reads h).mem]
  split
  · exact .ok _ (u.writes h (.mem _))
  · exact .raise _ h

theorem Unobserved.memWrite16 (u : Unobserved R) (h : R s t) (a v : Word) :
    ResultRel R (memWrite16 a v s) (memWrite16 a v t) := by
  simp only [memWrite16_eq, State.inMem, (u.reads h).mem]
  split
  · exact .ok _ (u.writes h (.mem _))
  · exact .raise _ h

theorem Unobserved.fetch8 (u : Unobserved R) (h : R s t) :
    ResultRel R (fetch8 s) (fetch8 t) := by
  rw [Machine.fetch8, Machine.fetch8, (u.reads h).pc]
  refine (u.memRead h _).bind fun b s t h => ?_
  rw [(u.reads h).pc]
  exact .ok b (u.writes h (.pc _))

theorem Unobserved.fetch16 (u : Unobserved R) (h : R s t) :
    ResultRel R (fetch16 s) (fetch16 t) :=
  (u.fetch8 h).bind fun _ _ _ h => (u.fetch8 h).bind fun _ _ _ h => .ok _ h

theorem Unobserved.fetchOperands (u : Unobserved R) (h : R s t) (d : Descriptor) :
    ResultRel R (fetchOperands d s) (fetchOperands d t) := by
  cases d with
  | n => exact .ok _ h
  | i => exact (u.fetch8 h).bind fun _ _ _ h => .ok _ h
  | a => exact (u.fetch16 h).bind fun _ _ _ h => .ok _ h

theorem Unobserved.fetchInstr (u : Unobserved R) (h : R s t) :
    ResultRel R (fetchInstr s) (fetchInstr t) := by
  rw [Machine.fetchInstr, Machine.fetchInstr, (u.reads h).pc]
  refine (u.fetch8 h).bind fun op s t h => ?_
  split
  · exact .raise _ h
  · exact u.fetchOperands h _

theorem Unobserved.accFromMemory (u : Unobserved R) (h : R s t) (f : Byte → Byte → Byte)
    (a : Word) : ResultRel R (accFromMemory f a s) (accFromMemory f a t) := by
  refine (u.memRead h _).bind fun v s t h => ?_
  rw [(u.reads h).acc]
  exact .ok _ (u.writes h (.acc _))

theorem Unobserved.pushByte (u : Unobserved R) (h : R s t) (v : Byte) :
    ResultRel R (pushByte v s) (pushByte v t) := by
  have decrement : ResultRel R (spDecrement1 s) (spDecrement1 t) := by
    rw [spDecrement1, spDecrement1, (u.reads h).sp]
    split
    · exact .raise _ h
    · exact .ok _ (u.writes h (.sp _))
  refine decrement.bind fun _ s t h => ?_
  rw [(u.reads h).sp]
  exact u.memWrite h _ v

theorem Unobserved.popByte (u : Unobserved R) (h : R s t) :
    ResultRel R (popByte s) (popByte t) := by
  rw [Machine.popByte, Machine.popByte, (u.reads h).sp]
  refine (u.memRead h _).bind fun v s t h => ?_
  rw [spIncrement, spIncrement, (u.reads h).sp]
  exact .ok v (u.writes h (.sp _))

theorem Unobserved.pushPcAndJump (u : Unobserved R) (h : R s t) (a : Word) :
    ResultRel R (pushPcAndJump a s) (pushPcAndJump a t) := by
  have decrement : ResultRel R (spDecrement2 s) (spDecrement2 t) := by
    rw [spDecrement2, spDecrement2, (u.reads h).sp]
    split
    · exact .raise _ h
    · exact .ok _ (u.writes h (.sp _))
  refine decrement.bind fun _ s t h => ?_
  rw [(u.reads h).sp, (u.reads h).pc]
  exact (u.memWrite16 h _ _).bind fun _ _ _ h => .ok () (u.writes h (.pc a))

/-! ### An instruction and a step -/

theorem Unobserved.execJz (u : Unobserved R) (h : R s t) (a : Word) :
    OutcomeRel R (exec (.jz a) s) (exec (.jz a) t) := by
  rw [exec_jz, exec_jz, State.accIsZero, State.accIsZero, (u.reads h).acc]
  split
  · exact .next (u.writes h (.pc a))
  · exact .next h

theorem Unobserved.execJnz (u : Unobserved R) (h : R s t) (a : Word) :
    OutcomeRel R (exec (.jnz a) s) (exec (.jnz a) t) := by
  rw [exec_jnz, exec_jnz, State.accIsZero, State.accIsZero, (u.reads h).acc]
  split
  · exact .next h
  · exact .next (u.writes h (.pc a))

theorem Unobserved.execDiv (u : Unobserved R) (h : R s t) :
    OutcomeRel R (exec .div s) (exec .div t) := by
  by_cases zero : s.regB = 0
  · rw [exec_div_zero zero, exec_div_zero ((u.reads h).regB.trans zero)]
    exact .next (u.writes h (.error .divisionByZero))
  · rw [exec_div_nonzero zero, exec_div_nonzero ((u.reads h).regB ▸ zero), (u.reads h).regA,
      (u.reads h).regB]
    exact .next (u.writes h (.acc (s.regA / s.regB)))

/-- An instruction ends in related states. -/
theorem Unobserved.exec (u : Unobserved R) (h : R s t) (i : Instr) :
    OutcomeRel R (exec i s) (exec i t) := by
  cases i with
  | load a | add a | sub a | and a | or a | xor a => exact u.finish (u.accFromMemory h _ a)
  | store a =>
    rw [exec_store, exec_store, (u.reads h).acc]
    exact u.finish (u.memWrite h a _)
  | inc => rw [exec_inc, exec_inc, (u.reads h).acc]; exact .next (u.writes h (.acc _))
  | dec => rw [exec_dec, exec_dec, (u.reads h).acc]; exact .next (u.writes h (.acc _))
  | lda v => exact .next (u.writes h (.acc v))
  | mov =>
    show OutcomeRel R (.next (s.setRegB s.regA)) (.next (t.setRegB t.regA))
    rw [(u.reads h).regA]
    exact .next (u.writes h (.regB _))
  | mul =>
    show OutcomeRel R (.next (s.setAcc (aluMul s.regA s.regB)))
      (.next (t.setAcc (aluMul t.regA t.regB)))
    rw [(u.reads h).regA, (u.reads h).regB]
    exact .next (u.writes h (.acc _))
  | div => exact u.execDiv h
  | cmp => exact .next h
  | jmp a | jp a | jn a => exact .next (u.writes h (.pc a))
  | jz a => exact u.execJz h a
  | jnz a => exact u.execJnz h a
  | call a | int a => exact u.finish (u.pushPcAndJump h a)
  | ret =>
    rw [exec_ret, exec_ret, (u.reads h).sp, (u.reads h).pc]
    exact u.finish (u.memWrite16 (u.writes h (.sp _)) _ _)
  | cli => exact .next (u.writes h (.interruptsEnabled false))
  | sei => exact .next (u.writes h (.interruptsEnabled true))
  | push =>
    rw [exec_push, exec_push, (u.reads h).regA]
    exact u.finish (u.pushByte h _)
  | pop => exact u.finish ((u.popByte h).bind fun v _ _ h => .ok () (u.writes h (.regA v)))
  | halt => exact .next (u.writes h (.halted true))

/-- A step ends in related states. -/
theorem Unobserved.step (u : Unobserved R) (h : R s t) : OutcomeRel R (step s) (step t) := by
  cases hh : s.halted with
  | true =>
    rw [step_halted hh, step_halted ((u.reads h).halted.trans hh)]
    exact .next h
  | false =>
    rw [step_running hh, step_running ((u.reads h).halted.trans hh)]
    have fetched := u.fetchInstr h
    generalize Machine.fetchInstr s = r at fetched ⊢
    generalize Machine.fetchInstr t = r' at fetched ⊢
    cases fetched with
    | ok i h => exact u.exec h i
    | raise e h => exact .next (u.writes h (.error e))

/-- The next state of the one run has a related next state of the other. -/
theorem Unobserved.next (u : Unobserved R) {s' : State} (h : R s t)
    (next : Machine.step s = .next s') : ∃ t', Machine.step t = .next t' ∧ R s' t' := by
  have outcomes := u.step h
  rw [next] at outcomes
  generalize Machine.step t = o at outcomes
  cases outcomes with
  | next h => exact ⟨_, rfl, h⟩

end

/-! ### The two relations -/

/-- `t` is `s` but for `interrupts_enabled`, which in `t` is `b` or what it is in `s`. -/
def FlagApart (b : Bool) (s t : State) : Prop :=
  ∃ c, t = { s with interruptsEnabled := c } ∧ (c = b ∨ c = s.interruptsEnabled)

/-- No read tells such states apart, and every write keeps them so: CLI and SEI write the flag in
both. -/
theorem flagApart_unobserved (b : Bool) : Unobserved (FlagApart b) where
  reads := by
    rintro s _ ⟨c, rfl, -⟩
    exact ⟨rfl, rfl, rfl, rfl, rfl, rfl, rfl⟩
  writes := by
    rintro s _ ⟨c, rfl, flag⟩ w
    cases w with
    | interruptsEnabled v => exact ⟨v, rfl, .inr rfl⟩
    | error e => cases e <;> exact ⟨c, rfl, flag⟩
    | _ => exact ⟨c, rfl, flag⟩

/-- `t` is `s` but for `err`, `err_opcode` and `err_pc`. -/
def StatusApart (s t : State) : Prop :=
  ∃ e op p, t = { s with err := e, errOpcode := op, errPc := p }

/-- No read tells such states apart, and every write keeps them so: an error's entry writes the
status in both. -/
theorem statusApart_unobserved : Unobserved StatusApart where
  reads := by
    rintro s _ ⟨e, op, p, rfl⟩
    exact ⟨rfl, rfl, rfl, rfl, rfl, rfl, rfl⟩
  writes := by
    rintro s _ ⟨e, op, p, rfl⟩ w
    cases w with
    | error f => cases f <;> exact ⟨_, _, _, rfl⟩
    | _ => exact ⟨e, op, p, rfl⟩

/-! ### The obligations -/

/-- Settles O53: no operation observes the flag, so the two steps stay apart in it alone. -/
theorem interruptFlagIsNeverRead : Obligations.InterruptFlagIsNeverRead := by
  intro s t b next
  have apart : FlagApart b s { s with interruptsEnabled := b } := ⟨b, rfl, .inl rfl⟩
  obtain ⟨t', next', c, rfl, flag⟩ := (flagApart_unobserved b).next apart next
  exact ⟨_, next', rfl, flag⟩

/-- Settles O54: no operation observes the error status, so the two steps stay apart in it
alone. -/
theorem errorStatusIsNeverRead : Obligations.ErrorStatusIsNeverRead := by
  intro s t e op p next
  have apart : StatusApart s { s with err := e, errOpcode := op, errPc := p } := ⟨e, op, p, rfl⟩
  obtain ⟨t', next', e', op', p', rfl⟩ := statusApart_unobserved.next apart next
  exact ⟨_, next', rfl⟩

end Sys2Proof.Machine
end

section
/-! PROOFS. The obligation on a store over the next opcode byte (20_memory.md section 4, R66). -/

namespace Sys2Proof.Machine

/-- A STORE inside memory puts `acc` there and changes nothing else (41_load_store.md R121). -/
theorem exec_store_inside {addr : Word} {s : State} (inside : s.inMem addr.toNat) :
    exec (.store addr) s = .next { s with mem := s.mem.set addr.toNat s.acc } := by
  rw [exec_store, memWrite_eq, if_pos inside, finish_ok]
  rfl

theorem Word.add_three_add_one (p : Word) : p + 3 + 1 = p + 4 := by rw [BitVec.add_assoc]; rfl

/-- Settles O55: the STORE leaves `pc` at the byte it wrote, which the next step fetches as HALT. -/
theorem storeIntoNextOpcode : Obligations.StoreIntoNextOpcode := by
  intro s fetched acc low high target operand
  have storeRow : descriptor 0x02 = some (.a .store) := rfl
  have haltRow : descriptor 0xFF = some (.n .halt) := rfl
  obtain ⟨executes, -⟩ := stepsFormatA_of_descriptor storeRow s fetched
  have stores : step s =
      .next { s with pc := s.pc + 3, mem := s.mem.set (s.pc + 3).toNat 0xFF } := by
    rw [executes low high, operand, BitVec.ofNat_toNat, BitVec.setWidth_eq, ← acc]
    exact exec_store_inside target
  obtain ⟨running, -, -⟩ := fetched
  have halts := stepsFormatN_of_descriptor haltRow
    { s with pc := s.pc + 3, mem := s.mem.set (s.pc + 3).toNat 0xFF }
    ⟨running, target, Memory.get_set_self ..⟩
  refine ⟨_, _, stores, halts.trans (exec_halt _), ?_⟩
  rw [Word.add_three_add_one]
  exact storesByte_setMem_set { s with pc := s.pc + 4, halted := true } _ _

end Sys2Proof.Machine
end
